-- ==== Sys2Proof/Word.lean ====
section
/-! DEFINITION. The word types of the block: segment patterns and frame bytes, operand words, handle words
(spec/00_scope.md rules R12, R13; spec/30_encoding.md rules R71, R73). -/

namespace Sys2Proof

/-- Eight bits: a SegmentPattern (`PAT_W`), a digit-select byte (`MASK_W`), a byte of a command frame (rule R12). -/
abbrev Byte := BitVec 8

/-- An operand word of 32 bits: a character code (`CHAR_W`, D5), a digit, a number (`NUM_W`, D7), a length (rule R71). -/
abbrev Word := BitVec 32

/-- The identity of a collaborator, "opaque identities that the platform binds to collaborator instances" (rule R73). -/
abbrev Handle := Word

/-- A 2-bit back-buffer index, and the range of the digit cursor (`CUR_W`; rules R12, R25, R41). -/
abbrev Slot := BitVec 2

end Sys2Proof
end

