-- ==== Sys2Proof/Config.lean ====
section
/-! DEFINITION. What an implementation fixes and what the spec leaves open: the open parameters of
spec/00_scope.md rule R13, the native error values, and the free values. -/

namespace Sys2Proof

/-- The open parameters of rule R13 that a model takes as arguments. They are constant: no command writes them
(spec/10_state.md rule R36). The state carries them (notes/assumptions/3.md), so a statement about every state is a
statement about every choice of them. -/
structure Config where
  /-- `DIGIT_ROM`, 10 entries of 8 bits, OPEN (spec/40_encoder.md rule R81, D9). -/
  digitRom : Vector Byte 10
  /-- `LETTER_ROM`, 26 entries of 8 bits, OPEN (spec/40_encoder.md rule R82, D10). -/
  letterRom : Vector Byte 26
  /-- `NUM_SIGNED`: is the WNUM word read as two's complement, OPEN (spec/30_encoding.md rule R70, D7). -/
  numSigned : Bool
  /-- `DELAY_US`: the pause of REFRESHD in microseconds (spec/43_refresh.md rule R142, D19). -/
  delayUs : Nat
  deriving DecidableEq, Repr

/-- `RomRead(DIGIT, k)` (spec/20_memory.md rule R44). -/
def Config.digit (cfg : Config) (k : Fin 10) : Byte := cfg.digitRom[k]

/-- `RomRead(LETTER, k)` (spec/20_memory.md rule R44). -/
def Config.letter (cfg : Config) (k : Fin 26) : Byte := cfg.letterRom[k]

/-- The one constraint on the tables: `LETTER_ROM[20] = LETTER_ROM[21]`, 'U' and 'V' share a pattern (rule R82). -/
def Config.wf (cfg : Config) : Bool := decide (cfg.letter 20 = cfg.letter 21)

/-- Open parameter: which tokens are values of `EP`. The type is opaque (rule R13, D20): nothing says how many values it
has (notes/assumptions/5.md). -/
opaque Config.isPinError : Nat → Bool

/-- Open parameter: which tokens are values of `ET`, likewise. -/
opaque Config.isTransportError : Nat → Bool

/-- `EP`, the opaque type of the strobe pin's native error value (spec/60_exceptions.md rule R159): the tokens that
`Config.isPinError` admits, and one value at least, since a pin call may fail (rule R170). The block only copies a
value from an answer to a response. -/
structure EP where
  token : Nat
  admitted : token = 0 ∨ Config.isPinError token = true
  deriving DecidableEq, Repr

/-- `ET`, the opaque type of the transport's native error value (spec/60_exceptions.md rule R158), another type than
`EP`. -/
structure ET where
  token : Nat
  admitted : token = 0 ∨ Config.isTransportError token = true
  deriving DecidableEq, Repr

/-- Free value: how a pin error value is written in a PIN_ERROR response's payload (rule R77 leaves it opaque). -/
opaque Config.pinErrorBytes : EP → List Byte

/-- Free value: how a transport error value is written in a TRANSPORT_ERROR response's payload (rule R77). -/
opaque Config.transportErrorBytes : ET → List Byte

/-- Free value: what `PAT` holds outside a refresh, "unspecified" (spec/10_state.md rule R30;
notes/assumptions/4.md). The argument is the state's counter of draws. -/
opaque Config.freePattern : Nat → Byte

/-- Free value: which of the four legal one-hot values `MASK` holds outside a refresh (rules R18, R30). -/
opaque Config.freeSlot : Nat → Slot

/-- Free value: what `DLY` holds outside a refresh (rule R30). -/
opaque Config.freeDelay : Nat → Option Handle

end Sys2Proof
end

