-- ==== Sys2Proof/Machine/Reference.lean ====
section
/-! DEFINITION. The spec's default for each open parameter (spec/00_scope.md rule R13): the reference fills RF-D and
RF-L (spec/40_encoder.md rules R92, R93), unsigned WNUM, a pause of 100 microseconds. They are the reset value of
`State.cfg` and nothing else rests on them (notes/assumptions/3.md). -/

namespace Sys2Proof

/-- Reference fill RF-D (rule R92): the digits 0 to 9. -/
def referenceDigitRom : Vector Byte 10 :=
  #v[0xC0, 0xF9, 0xA4, 0xB0, 0x99, 0x92, 0x82, 0xF8, 0x80, 0x90]

/-- Reference fill RF-L (rule R93): the letters A to Z. -/
def referenceLetterRom : Vector Byte 26 :=
  #v[0x88, 0x83, 0xC6, 0xA1, 0x86, 0x8E, 0xC2, 0x89, 0xCF, 0xE1, 0x8A, 0xC7, 0xC8,
     0xAB, 0xA3, 0x8C, 0x98, 0xAF, 0x92, 0x87, 0xC1, 0xC1, 0xD5, 0x89, 0x91, 0xA4]

/-- The defaults of rule R13. -/
def referenceConfig : Config where
  digitRom := referenceDigitRom
  letterRom := referenceLetterRom
  numSigned := false
  delayUs := 100

end Sys2Proof
end

