-- ==== Sys2Proof/Syntax.lean ====
section
/-! DEFINITION. The commands of the block, one constructor per row of spec/opcode_table.json, and the two
pseudo-commands of spec/30_encoding.md rule R79. -/

namespace Sys2Proof

/-- A command of the block (spec/30_encoding.md rule R72). The last two constructors are the table's two reserved
rows, which rule R75 decodes as `Illegal(op)`. -/
inductive Instr where
  /-- ENCC, rule R88: encode the character code `c`. -/
  | encc (c : Word)
  /-- ENCD, rule R91: encode the digit `n`. -/
  | encd (n : Word)
  /-- CONSTRUCT, rule R101: take the transport `t` and the strobe output `s`. -/
  | construct (t s : Handle)
  /-- RELEASE, rule R105: hand both collaborators back. -/
  | release
  /-- WCHARS, rule R113: four character codes, left to right. -/
  | wchars (a b c d : Word)
  /-- WSTR, rule R117: the character codes of a text; the frame's word `L` is the length of the list. -/
  | wstr (text : List Word)
  /-- WNUM, rule R121: the number word `n`. -/
  | wnum (n : Word)
  /-- REFRESH, rule R130: show one digit. -/
  | refresh
  /-- REFRESHD, rule R141: show one digit, pausing on the delay source `d` before the latch edge. -/
  | refreshd (d : Handle)
  /-- The reserved opcode 0x00, rule R75: `Illegal(0x00)`. -/
  | illegalZero
  /-- The reserved opcodes 0x0A..0xFF, rule R75: `Illegal(op)`. -/
  | illegalHigh (op : Byte)
  deriving DecidableEq, Repr

/-- The pseudo-commands an assembler expands; "Neither is a command of the block" (rule R79). -/
inductive Pseudo where
  | clear
  | scan
  deriving DecidableEq, Repr

/-- The expansions of rule R79: `CLEAR` is `WSTR ""`, `SCAN` is four `REFRESH`. -/
def Pseudo.expand : Pseudo → List Instr
  | .clear => [.wstr []]
  | .scan => [.refresh, .refresh, .refresh, .refresh]

end Sys2Proof
end

