-- ==== Sys2Proof/Machine/State.lean ====
section
/-! DEFINITION. The state of the block (spec/10_state.md rule R18), its event trace (spec/20_memory.md rule R49), the
environment's input, the state at power-up, and the reasons a step can stop. -/

namespace Sys2Proof.Machine

/-- Where a refresh stands between collaborator calls (spec/10_state.md rule R29). -/
inductive Phase where
  | idle
  | waitLow
  | waitWrite
  | waitDelay
  | waitHigh
  deriving DecidableEq, Repr

/-- What the block knows of the strobe line's level (spec/10_state.md rule R31). -/
inductive Strobe where
  | unknown
  | low
  | high
  deriving DecidableEq, Repr

/-- The back-buffer space: (index, byte) cells in one canonical form, indices strictly rising and below 4, no cell
equal to 0xFF, which is what an unlisted slot reads as (spec/20_memory.md rule R41, spec/10_state.md rule R22;
notes/assumptions/10.md). -/
abbrev Memory := List Host.Cell

/-- The elements that exist while `life` is Active and only then (spec/10_state.md rules R18, R32). -/
structure Controller where
  /-- `TH`, the transport CONSTRUCT took (rule R33). -/
  th : Handle
  /-- `SH`, the strobe output CONSTRUCT took (rule R33). -/
  sh : Handle
  /-- `BB[0..3]`, the back buffer (rule R19). -/
  bb : Memory
  /-- `cursor`, the slot the next refresh displays (rule R25). -/
  cursor : Slot
  /-- `phase` (rule R29). -/
  phase : Phase
  /-- `PAT`, the pattern byte of the refresh in progress (rule R30). -/
  pat : Byte
  /-- `MASK`, the select byte of the refresh in progress (rule R30). -/
  mask : Byte
  /-- `DLY`, the delay source of a REFRESHD in progress, none for REFRESH (rule R30). -/
  dly : Option Handle
  /-- `strobe` (rule R31). -/
  strobe : Strobe
  deriving DecidableEq, Repr

/-- `life`, with the elements whose existence it decides: "While `life` is not `Active` [they] do not exist: a model
holds no value for them" (spec/10_state.md rule R32). -/
inductive Life where
  | unconstructed
  | active (c : Controller)
  | released
  deriving DecidableEq, Repr

/-- The model faults and what each records (spec/60_exceptions.md rule R155). "Nothing else faults." -/
inductive FaultMark where
  /-- F_ILLEGAL_COMMAND, 0x10: a reserved opcode; the opcode byte (rule R154). -/
  | illegalCommand (op : Byte)
  /-- F_DIGIT_RANGE, 0x11: ENCD of n ≥ 10; n (spec/40_encoder.md rule R90). -/
  | digitRange (n : Word)
  /-- F_LIFECYCLE, 0x12: a controller command while not Active, or CONSTRUCT while Active; the opcode (rule R156). -/
  | lifecycle (op : Byte)
  /-- F_REENTERED, 0x13: a command while a refresh waits; the opcode (rule R157). -/
  | reentered (op : Byte)
  deriving DecidableEq, Repr

/-- The calls the block makes (spec/60_exceptions.md rule R170). -/
inductive Call where
  | strobeLow
  | strobeHigh
  | transportWrite (bytes : List Byte)
  | delay (us : Nat)
  deriving DecidableEq, Repr

/-- A collaborator's answer to the call just made (rule R170): Ok, an error of the strobe output, or an error of the
transport. A call that is never answered has no answer. -/
inductive Answer where
  | ok
  | pinErr (e : EP)
  | transportErr (e : ET)
  deriving DecidableEq, Repr

/-- The one response of a command (spec/30_encoding.md rule R77). -/
inductive Response where
  /-- OK with no payload: CONSTRUCT, WCHARS, WSTR, WNUM, REFRESH, REFRESHD. -/
  | ok
  /-- OK with one SegmentPattern: ENCC, ENCD. -/
  | okPattern (p : Byte)
  /-- OK with the two handle words: RELEASE. -/
  | okHandles (t s : Handle)
  /-- PIN_ERROR (spec/60_exceptions.md rule R159). -/
  | pinError (e : EP)
  /-- TRANSPORT_ERROR (spec/60_exceptions.md rule R158). -/
  | transportError (e : ET)
  deriving DecidableEq, Repr

/-- An event of the block's trace (spec/20_memory.md rule R49). -/
inductive Event where
  | cmd (i : Instr)
  | call (h : Handle) (c : Call)
  | ans (a : Answer)
  | resp (r : Response)
  deriving DecidableEq, Repr

/-- An event of the environment: a byte of the host's command stream, or a collaborator's answer.
DESIGN CHOICE (notes/assumptions/2.md). -/
inductive EnvEvent where
  | byte (b : Byte)
  | answer (a : Answer)
  deriving DecidableEq, Repr

/-- The state of the block (spec/10_state.md rule R18) and of the run it is in. -/
structure State where
  /-- `life`, and with it every element of the controller (rules R18, R32). -/
  life : Life
  /-- `fault`, the fault mark, never cleared (rule R35). -/
  fault : Option FaultMark
  /-- The event trace so far, oldest first (spec/20_memory.md rules R40, R49). -/
  trace : List Event
  /-- The model's own: bytes the host has sent that the decoder has not consumed (spec/30_encoding.md rule R74). -/
  rx : List Byte
  /-- The model's own: the environment's events still to come, next first (notes/assumptions/2.md). -/
  inbox : List EnvEvent
  /-- The model's own: how many free values have been drawn (notes/assumptions/4.md). -/
  draws : Nat
  /-- The model's own: the open parameters of spec/00_scope.md rule R13, constant (notes/assumptions/3.md). -/
  cfg : Config
  deriving DecidableEq, Repr

/-- Why a step has no next state. Each is safe: the spec gives the block no step there either. -/
inductive Fault where
  /-- The fault mark is set: "A state with `fault ≠ none` has no further step" (rule R35). Raised by `step` and by
  every command. Safe. -/
  | stopped (f : FaultMark)
  /-- A collaborator call is unanswered and no event of the environment is left: the hang of spec/43_refresh.md rule
  R139, "a state with no further step". Raised by `step`. Safe. -/
  | hung (p : Phase)
  /-- An answer in a phase whose row spec/43_refresh.md rule R134 does not have: any answer in Idle, an error answer
  to Delay, an error of the transport to a strobe call or of the pin to a write. Raised by `step`. Safe. -/
  | noTransition (p : Phase)
  deriving DecidableEq, Repr

/-- Why a command has no meaning in the model. -/
inductive Refusal where
  /-- An instruction that has no meaning yet, rejected by name in `exec`. Safe: nothing can be proved of it. -/
  | notModelled (mnemonic : String)
  deriving DecidableEq, Repr

/-- The result of a step or of a command. -/
abbrev Result := Host.Outcome State Fault Refusal

/-- `phase` of the block: Idle while there is no controller (spec/70_reset_and_hazards.md rule R177). -/
def Life.phase : Life → Phase
  | .active c => c.phase
  | .unconstructed => .idle
  | .released => .idle

/-- `phase` (spec/10_state.md rule R29). -/
def State.phase (s : State) : Phase := s.life.phase

/-- The state at power-up: "`life = Unconstructed`, `phase = Idle` and `fault = none`, and no other element exists"
(spec/70_reset_and_hazards.md rule R177). Nothing has happened and nothing is sent. The state the spec calls the
reset state is what CONSTRUCT makes of this one (rule R176; notes/assumptions/1.md). -/
def State.reset : State where
  life := .unconstructed
  fault := none
  trace := []
  rx := []
  inbox := []
  draws := 0
  cfg := referenceConfig

end Sys2Proof.Machine
end

