-- ==== Sys2Proof/Machine/Memory.lean ====
section
/-! DEFINITION. The operations of the back-buffer space (spec/20_memory.md rules R41 to R43): one whole 8-bit slot
at a time. -/

namespace Sys2Proof.Machine

/-- The cleared value of a slot, all segments off, and what an unlisted slot reads as (spec/10_state.md rule R22,
spec/30_encoding.md rule R61). -/
def blank : Byte := 0xFF#8

/-- Canonical form from index `lo` up: indices strictly rising and below 4, no cell equal to `blank`. -/
def wfFrom : Nat → Memory → Bool
  | _, [] => true
  | lo, (a, b) :: m => decide (lo ≤ a) && decide (a < 4) && decide (b ≠ blank) && wfFrom (a + 1) m

/-- The memory is in its one canonical form. -/
def Memory.wf (m : Memory) : Bool := wfFrom 0 m

/-- The byte at an index; an unlisted index reads as `blank`. -/
def readAt : Memory → Nat → Byte
  | [], _ => blank
  | (x, y) :: m, a => if x = a then y else readAt m a

/-- The cells at every other index. -/
def dropCell (m : Memory) (a : Nat) : Memory := m.filter fun c => decide (c.1 ≠ a)

/-- A cell put before the first cell of a greater index. -/
def insertCell (a : Nat) (b : Byte) : Memory → Memory
  | [] => [(a, b)]
  | c :: m => if a < c.1 then (a, b) :: c :: m else c :: insertCell a b m

/-- The memory with the byte `b` at index `a`, still canonical. -/
def writeAt (m : Memory) (a : Nat) (b : Byte) : Memory :=
  if b = blank then dropCell m a else insertCell a b (dropCell m a)

/-- `MemRead(i, 1)`, `BB[i]` (rule R41). -/
def readSlot (m : Memory) (i : Slot) : Byte := readAt m i.toNat

/-- `MemWrite(i, 1, v)`, `BB[i] <- v` (rule R41). -/
def writeSlot (m : Memory) (i : Slot) (v : Byte) : Memory := writeAt m i.toNat v

/-- Every slot at `blank`: "for i in 0..3: BB[i] <- 0xFF" (spec/41_lifecycle.md rule R101). -/
def clearedMemory : Memory := []

/-- Writes the patterns into the slots from `i` on, left to right. The callers give at most four patterns from slot
0, so that the index never wraps (spec/42_buffer_writes.md rules R113, R117, R121). -/
def writeSlots (m : Memory) : Slot → List Byte → Memory
  | _, [] => m
  | i, p :: ps => writeSlots (writeSlot m i p) (i + 1) ps

end Sys2Proof.Machine
end

