-- ==== Sys2Proof/Machine/Operands.lean ====
section
/-! DEFINITION. How operands are read: character classes and case folding, the encoder's two functions, the WNUM
clamp and its decimal digits, and what the bits of a pattern mean (spec/30_encoding.md rules R60 to R70,
spec/40_encoder.md rules R87, R89, spec/42_buffer_writes.md rule R121). -/

namespace Sys2Proof.Machine

/-- The segments of a digit (spec/30_encoding.md rule R62). -/
inductive Segment where
  | a | b | c | d | e | f | g | dp
  deriving DecidableEq, Repr

/-- The bit of a SegmentPattern that controls a segment (rule R62). -/
def Segment.bit : Segment → Nat
  | .a => 0 | .b => 1 | .c => 2 | .d => 3 | .e => 4 | .f => 5 | .g => 6 | .dp => 7

/-- Where a segment stands on the digit (spec/00_scope.md rule R17). -/
inductive Position where
  | top | upperRight | lowerRight | bottom | lowerLeft | upperLeft | middle | decimalPoint
  deriving DecidableEq, Repr

/-- The position of a segment. The source places D and G; the others are the usual convention. PRESUMED
(notes/assumptions/14.md). -/
def Segment.position : Segment → Position
  | .a => .top | .b => .upperRight | .c => .lowerRight | .d => .bottom
  | .e => .lowerLeft | .f => .upperLeft | .g => .middle | .dp => .decimalPoint

/-- "Segment X is lit if and only if its bit is 0" (rules R60, R62). -/
def lit (p : Byte) (x : Segment) : Bool := !p.getLsbD x.bit

/-- MINUS, "only the middle (G) segment on" (rule R63). -/
def minusPattern : Byte := 0xBF#8

/-- UNDERSCORE, "only the bottom (D) segment on" (rule R63). -/
def underscorePattern : Byte := 0xF7#8

/-- The classes of character codes (rule R67). -/
inductive CharClass where
  | digit | upper | lower | space | minus | underscore | other
  deriving DecidableEq, Repr

/-- The class of a code: the whole 32-bit word is compared (rule R67). The code values are ASCII
(notes/assumptions/14.md). -/
def classify (c : Word) : CharClass :=
  if 0x30 ≤ c.toNat ∧ c.toNat ≤ 0x39 then .digit
  else if 0x41 ≤ c.toNat ∧ c.toNat ≤ 0x5A then .upper
  else if 0x61 ≤ c.toNat ∧ c.toNat ≤ 0x7A then .lower
  else if c.toNat = 0x20 then .space
  else if c.toNat = 0x2D then .minus
  else if c.toNat = 0x5F then .underscore
  else .other

/-- Case normalisation, ASCII only: a LOWER code x becomes x - 0x20 (rule R68). -/
def normalise (c : Word) : Word :=
  if 0x61 ≤ c.toNat ∧ c.toNat ≤ 0x7A then c - 0x20#32 else c

/-- The lookup of `encode_char` after case normalisation (spec/40_encoder.md rule R87). -/
def encodeNormalised (cfg : Config) (c : Word) : Byte :=
  if h : 0x41 ≤ c.toNat ∧ c.toNat ≤ 0x5A then cfg.letter ⟨c.toNat - 0x41, by omega⟩
  else if c = 0x20#32 then blank
  else if c = 0x2D#32 then minusPattern
  else if c = 0x5F#32 then underscorePattern
  else blank

/-- `encode_char` (spec/40_encoder.md rule R87): total, raises nothing. -/
def encodeChar (cfg : Config) (c : Word) : Byte :=
  if h : 0x30 ≤ c.toNat ∧ c.toNat ≤ 0x39 then cfg.digit ⟨c.toNat - 0x30, by omega⟩
  else encodeNormalised cfg (normalise c)

/-- `encode_digit` (spec/40_encoder.md rule R89): no value for n ≥ 10, where the command faults (rule R90). -/
def encodeDigit (cfg : Config) (n : Word) : Option Byte :=
  if h : n.toNat ≤ 9 then some (cfg.digit ⟨n.toNat, by omega⟩) else none

/-- `clamp(n)` (spec/42_buffer_writes.md rule R121): in 0..9999. -/
def clamp (numSigned : Bool) (n : Word) : Fin 10000 :=
  if n.msb && numSigned then 0
  else if h : n.toNat ≤ 9999 then ⟨n.toNat, by omega⟩
  else 9999

/-- The four decimal digits of a clamped number: thousands, hundreds, tens, units (rules R121, R122). -/
def decimalDigits (m : Fin 10000) : List (Fin 10) :=
  [⟨m.val / 1000, by omega⟩, ⟨m.val / 100 % 10, by omega⟩, ⟨m.val / 10 % 10, by omega⟩, ⟨m.val % 10, by omega⟩]

end Sys2Proof.Machine
end

