-- ==== Sys2Proof/WellFormed.lean ====
section
/-! DEFINITION. Which commands are the meaning of some frame (spec/30_encoding.md rules R71 to R75). -/

namespace Sys2Proof

/-- A command that some frame encodes. The length of a WSTR text is a 32-bit count (rule R73), and a reserved row
other than 0x00 has an opcode in 0x0A..0xFF (rule R75). Every other operand is a whole 32-bit word, all of whose
values are encodable: an ENCD digit above 9 is well formed and faults when it runs (rule R69). -/
def Instr.wf : Instr → Bool
  | .encc _ => true
  | .encd _ => true
  | .construct _ _ => true
  | .release => true
  | .wchars _ _ _ _ => true
  | .wstr text => decide (text.length < 2 ^ 32)
  | .wnum _ => true
  | .refresh => true
  | .refreshd _ => true
  | .illegalZero => true
  | .illegalHigh op => decide (0x0A ≤ op.toNat)

end Sys2Proof
end

