-- ==== Sys2Proof/Decode.lean ====
section
/-! DEFINITION. The command frames: the decoder, total over byte strings, and the encoder (spec/30_encoding.md
rules R71 to R76). -/

namespace Sys2Proof

/-- What the decoder makes of a byte string (rule R76): the first frame's command and the bytes after it, or
`incomplete`, the name by which it rejects a string whose first frame has not arrived whole (rule R74). -/
inductive Decoded where
  | command (i : Instr) (rest : List Byte)
  | incomplete
  deriving DecidableEq, Repr

/-- The 32-bit word that four bytes send, most significant byte first (rule R71). -/
def wordOfBytes (b3 b2 b1 b0 : Byte) : Word := b3 ++ b2 ++ b1 ++ b0

/-- The four bytes of a word, most significant first (rule R71). -/
def wordBytes (w : Word) : List Byte :=
  [w.extractLsb' 24 8, w.extractLsb' 16 8, w.extractLsb' 8 8, w.extractLsb' 0 8]

/-- The first operand word of a byte string and the bytes after it. -/
def readWord : List Byte → Option (Word × List Byte)
  | b3 :: b2 :: b1 :: b0 :: rest => some (wordOfBytes b3 b2 b1 b0, rest)
  | _ => none

/-- The first `n` operand words and the bytes after them. -/
def readWords : Nat → List Byte → Option (List Word × List Byte)
  | 0, bs => some ([], bs)
  | n + 1, bs =>
    match readWord bs with
    | none => none
    | some (w, rest) =>
      match readWords n rest with
      | none => none
      | some (ws, rest') => some (w :: ws, rest')

/-- Format F1: one operand word. -/
def decodeOne (k : Word → Instr) (bs : List Byte) : Decoded :=
  match readWord bs with
  | some (w, rest) => .command (k w) rest
  | none => .incomplete

/-- Format F2: two operand words. -/
def decodeTwo (k : Word → Word → Instr) (bs : List Byte) : Decoded :=
  match readWords 2 bs with
  | some ([w0, w1], rest) => .command (k w0 w1) rest
  | _ => .incomplete

/-- Format F4: four operand words. -/
def decodeFour (k : Word → Word → Word → Word → Instr) (bs : List Byte) : Decoded :=
  match readWords 4 bs with
  | some ([w0, w1, w2, w3], rest) => .command (k w0 w1 w2 w3) rest
  | _ => .incomplete

/-- Format FV: the length word `L`, then `L` words. The count of bytes present is compared first, so that a
length the string cannot hold is seen at once. -/
def decodeText (bs : List Byte) : Decoded :=
  match readWord bs with
  | none => .incomplete
  | some (len, rest) =>
    if rest.length < 4 * len.toNat then .incomplete
    else
      match readWords len.toNat rest with
      | some (ws, rest') => .command (.wstr ws) rest'
      | none => .incomplete

/-- The decoder (rules R72, R75, R76). A reserved opcode's frame is the opcode byte alone. -/
def decode : List Byte → Decoded
  | [] => .incomplete
  | op :: rest =>
    if op = 0x01#8 then decodeOne .encc rest
    else if op = 0x02#8 then decodeOne .encd rest
    else if op = 0x03#8 then decodeTwo .construct rest
    else if op = 0x04#8 then .command .release rest
    else if op = 0x05#8 then decodeFour .wchars rest
    else if op = 0x06#8 then decodeText rest
    else if op = 0x07#8 then decodeOne .wnum rest
    else if op = 0x08#8 then .command .refresh rest
    else if op = 0x09#8 then decodeOne .refreshd rest
    else if op = 0x00#8 then .command .illegalZero rest
    else .command (.illegalHigh op) rest

/-- Every complete frame of a byte string in order, and the trailing bytes that make no complete frame
(rule R76). A frame has at least one byte, so the string's length is fuel enough. -/
def decodeAllFuel : Nat → List Byte → List Instr × List Byte
  | 0, bs => ([], bs)
  | n + 1, bs =>
    match decode bs with
    | .incomplete => ([], bs)
    | .command i rest =>
      match decodeAllFuel n rest with
      | (is, tail) => (i :: is, tail)

/-- The decoder over a whole byte string (rule R76). -/
def decodeAll (bs : List Byte) : List Instr × List Byte := decodeAllFuel bs.length bs

/-- The length of the first frame, found "from its first byte alone, except for WSTR, whose length also needs the
word L that follows the opcode" (rule R74; the lengths are those of rule R71). -/
def frameLength : List Byte → Option Nat
  | [] => none
  | op :: rest =>
    if op = 0x03#8 then some 9
    else if op = 0x05#8 then some 17
    else if op = 0x06#8 then
      match readWord rest with
      | some (len, _) => some (5 + 4 * len.toNat)
      | none => none
    else if op = 0x01#8 ∨ op = 0x02#8 ∨ op = 0x07#8 ∨ op = 0x09#8 then some 5
    else some 1

/-- The opcode byte of a command (rule R72). -/
def Instr.opcode : Instr → Byte
  | .encc _ => 0x01#8
  | .encd _ => 0x02#8
  | .construct _ _ => 0x03#8
  | .release => 0x04#8
  | .wchars _ _ _ _ => 0x05#8
  | .wstr _ => 0x06#8
  | .wnum _ => 0x07#8
  | .refresh => 0x08#8
  | .refreshd _ => 0x09#8
  | .illegalZero => 0x00#8
  | .illegalHigh op => op

/-- The operand words of a command's frame, in the order they are sent (rules R71, R72). -/
def Instr.operandWords : Instr → List Word
  | .encc c => [c]
  | .encd n => [n]
  | .construct t s => [t, s]
  | .release => []
  | .wchars a b c d => [a, b, c, d]
  | .wstr text => BitVec.ofNat 32 text.length :: text
  | .wnum n => [n]
  | .refresh => []
  | .refreshd d => [d]
  | .illegalZero => []
  | .illegalHigh _ => []

/-- The frame of a command: the opcode byte, then each operand word big-endian (rule R71). -/
def encode (i : Instr) : List Byte := i.opcode :: i.operandWords.flatMap wordBytes

/-- Byte `k` of an instruction whose bits are numbered as spec/opcode_table.json numbers them: bits 8k+7..8k, and
zero above `nbits`. -/
def tableByte (nbits w k : Nat) : Byte := BitVec.ofNat 8 ((w % 2 ^ nbits) >>> (8 * k))

/-- The bytes of the frame whose bits are `w`: the `nbits` given, then zero bytes up to the end of the frame. -/
def tableFrame (nbits w : Nat) : List Byte :=
  match frameLength ((List.range 5).map (tableByte nbits w)) with
  | some n => (List.range n).map (tableByte nbits w)
  | none => []

/-- The command the decoder reads from an instruction whose bits are `w`. -/
def decodeTableWord (nbits w : Nat) : Option Instr :=
  match decode (tableFrame nbits w) with
  | .command i _ => some i
  | .incomplete => none

end Sys2Proof
end

