-- ==== Sys2Proof/Machine/Ops.lean ====
section
/-! DEFINITION. The named operations over the state: events, responses, taking a model fault, the precheck of every
command, the free values. -/

namespace Sys2Proof.Machine

/-- Appends an event to the trace (spec/20_memory.md rule R49). -/
def State.log (s : State) (e : Event) : State := { s with trace := s.trace ++ [e] }

/-- `respond(v)`: the command's one response (spec/00_scope.md rule R15, spec/30_encoding.md rule R77). -/
def State.respond (s : State) (r : Response) : State := s.log (.resp r)

/-- Makes the controller's elements `c`; `life` is then Active. -/
def State.setController (s : State) (c : Controller) : State := { s with life := .active c }

/-- TAKING A MODEL FAULT: "`fault F` records F in `fault`. It produces no response and no collaborator call, and it
leaves every other element of the state as it was at the moment of the fault" (spec/60_exceptions.md rule R153). -/
def State.raise (s : State) (f : FaultMark) : State := { s with fault := some f }

/-- A state with the fault mark set has no further step (spec/10_state.md rule R35). Otherwise the host's command is
an event of the trace (spec/20_memory.md rule R49), and `body` runs. -/
def issue (i : Instr) (s : State) (body : State → Result) : Result :=
  match s.fault with
  | some f => .fault (.stopped f)
  | none => body (s.log (.cmd i))

/-- The first check of `precheck` (spec/41_lifecycle.md rule R100), which every command makes: F_REENTERED while a
refresh waits. -/
def whenIdle (i : Instr) (s : State) (body : State → Result) : Result :=
  if s.phase = .idle then body s else .next (s.raise (.reentered i.opcode))

/-- A command that is legal in every `life` state: ENCC and ENCD make only the first check (rule R100). -/
def encoderCommand (i : Instr) (s : State) (body : State → Result) : Result :=
  issue i s fun s => whenIdle i s body

/-- A command of the controller: both checks of rule R100, in its order. `body` is given the controller's
elements. -/
def controllerCommand (i : Instr) (s : State) (body : Controller → State → Result) : Result :=
  issue i s fun s => whenIdle i s fun s =>
    match s.life with
    | .active c => body c s
    | .unconstructed => .next (s.raise (.lifecycle i.opcode))
    | .released => .next (s.raise (.lifecycle i.opcode))

/-- CONSTRUCT: F_REENTERED, then F_LIFECYCLE if `life` is Active (rule R100). -/
def constructCommand (i : Instr) (s : State) (body : State → Result) : Result :=
  issue i s fun s => whenIdle i s fun s =>
    match s.life with
    | .active _ => .next (s.raise (.lifecycle i.opcode))
    | .unconstructed => body s
    | .released => body s

/-- The digit-select byte of a cursor value, `zext_8(1 << (3 - c))` (spec/10_state.md rule R27,
spec/30_encoding.md rule R65). -/
def digitMask (c : Slot) : Byte := 1#8 <<< (3 - c.toNat)

/-- `(cursor + 1) % 4` (spec/43_refresh.md rule R131): two bits wrap. -/
def nextCursor (c : Slot) : Slot := c + 1#2

/-- `PAT`, `MASK` and `DLY` at free values, as they are outside a refresh (spec/10_state.md rule R30;
notes/assumptions/4.md). `MASK` keeps the limit of rule R18: one-hot in bits 3..0. -/
def Controller.unspecifyPayload (c : Controller) (draw : Nat) : Controller :=
  { c with
    pat := Config.freePattern draw
    mask := digitMask (Config.freeSlot draw)
    dly := Config.freeDelay draw }

/-- Installs a controller whose payload elements are unspecified, with a fresh draw for each. -/
def State.setIdleController (s : State) (c : Controller) : State :=
  { s with life := .active (c.unspecifyPayload s.draws), draws := s.draws + 1 }

end Sys2Proof.Machine
end

