-- ==== Sys2Proof/Machine/BufferWrites.lean ====
section
/-! DEFINITION. WCHARS, WSTR and WNUM (spec/42_buffer_writes.md): "Pure buffer mutation, no I/O, cannot fail". -/

namespace Sys2Proof.Machine

/-- The controller with another back buffer, and the response OK: all that a buffer write does (rule R110). -/
def State.writeBuffer (s : State) (c : Controller) (bb : Memory) : State :=
  (s.setController { c with bb := bb }).respond .ok

/-- WCHARS (spec/42_buffer_writes.md rule R113). -/
def execWchars (w0 w1 w2 w3 : Word) (s : State) : Result :=
  controllerCommand (.wchars w0 w1 w2 w3) s fun c s =>
    .next (s.writeBuffer c (writeSlots c.bb 0#2 ([w0, w1, w2, w3].map (encodeChar s.cfg))))

/-- WSTR (spec/42_buffer_writes.md rule R117): "clear first", then at most the first four characters. -/
def execWstr (text : List Word) (s : State) : Result :=
  controllerCommand (.wstr text) s fun c s =>
    .next (s.writeBuffer c (writeSlots clearedMemory 0#2 ((text.take 4).map (encodeChar s.cfg))))

/-- WNUM (spec/42_buffer_writes.md rule R121). Each digit is below 10, so `encode_digit` is its table entry
(rules R89, R122). -/
def execWnum (n : Word) (s : State) : Result :=
  controllerCommand (.wnum n) s fun c s =>
    .next (s.writeBuffer c
      (writeSlots c.bb 0#2 ((decimalDigits (clamp s.cfg.numSigned n)).map s.cfg.digit)))

end Sys2Proof.Machine
end

