-- ==== Sys2Proof/Machine/Encoder.lean ====
section
/-! DEFINITION. The encoder's commands ENCC and ENCD (spec/40_encoder.md). They write no state of the controller and
call no collaborator. -/

namespace Sys2Proof.Machine

/-- ENCC (spec/40_encoder.md rule R88). -/
def execEncc (c : Word) (s : State) : Result :=
  encoderCommand (.encc c) s fun s => .next (s.respond (.okPattern (encodeChar s.cfg c)))

/-- ENCD (spec/40_encoder.md rules R90, R91): no response for n ≥ 10, the fault mark F_DIGIT_RANGE instead. -/
def execEncd (n : Word) (s : State) : Result :=
  encoderCommand (.encd n) s fun s =>
    match encodeDigit s.cfg n with
    | some p => .next (s.respond (.okPattern p))
    | none => .next (s.raise (.digitRange n))

end Sys2Proof.Machine
end

