-- ==== Sys2Proof/Machine/Illegal.lean ====
section
/-! DEFINITION. The reserved opcodes (spec/30_encoding.md rule R75, spec/60_exceptions.md rule R154). -/

namespace Sys2Proof.Machine

/-- "issuing it raises model fault `F_ILLEGAL_COMMAND`"; it comes before every other check (rule R161). "No state
other than the fault mark changes" (rule R75). -/
def illegalCommand (i : Instr) (s : State) : Result :=
  issue i s fun s => .next (s.raise (.illegalCommand i.opcode))

/-- The reserved opcode 0x00. -/
def execIllegalZero (s : State) : Result := illegalCommand .illegalZero s

/-- The reserved opcodes 0x0A..0xFF. -/
def execIllegalHigh (op : Byte) (s : State) : Result := illegalCommand (.illegalHigh op) s

end Sys2Proof.Machine
end

