-- ==== Sys2Proof/Machine/Lifecycle.lean ====
section
/-! DEFINITION. CONSTRUCT and RELEASE (spec/41_lifecycle.md). Neither calls a collaborator. -/

namespace Sys2Proof.Machine

/-- The controller right after CONSTRUCT (spec/41_lifecycle.md rule R101, spec/70_reset_and_hazards.md rule R176),
but for `PAT`, `MASK` and `DLY`, which are unspecified and are set free by `setIdleController`. -/
def constructedController (t s : Handle) : Controller where
  th := t
  sh := s
  bb := clearedMemory
  cursor := 0#2
  phase := .idle
  pat := blank
  mask := digitMask 0#2
  dly := none
  strobe := .unknown

/-- CONSTRUCT (spec/41_lifecycle.md rule R101). -/
def execConstruct (t sh : Handle) (s : State) : Result :=
  constructCommand (.construct t sh) s fun s =>
    .next ((s.setIdleController (constructedController t sh)).respond .ok)

/-- RELEASE (spec/41_lifecycle.md rule R105): the response carries the handles CONSTRUCT took (rule R106), and the
controller's elements cease to exist. -/
def execRelease (s : State) : Result :=
  controllerCommand .release s fun c s =>
    .next (State.respond { s with life := .released } (.okHandles c.th c.sh))

end Sys2Proof.Machine
end

