-- ==== Sys2Proof/Machine/Refresh.lean ====
section
/-! DEFINITION. REFRESH and REFRESHD as the micro-step machine of spec/43_refresh.md rule R134: the command makes the
first call, and each collaborator answer is a step of its own. -/

namespace Sys2Proof.Machine

/-- The capture of rule R131: the payload of the cursor's slot, the cursor advanced before any call, StrobeLow about
to be called (rule R130). -/
def Controller.capture (c : Controller) (dly : Option Handle) : Controller :=
  { c with
    pat := readSlot c.bb c.cursor
    mask := digitMask c.cursor
    dly := dly
    cursor := nextCursor c.cursor
    strobe := .unknown
    phase := .waitLow }

/-- The Idle row of rule R134. -/
def State.beginRefresh (s : State) (c : Controller) (dly : Option Handle) : State :=
  (s.setController (c.capture dly)).log (.call c.sh .strobeLow)

/-- REFRESH (spec/43_refresh.md rule R130). -/
def execRefresh (s : State) : Result :=
  controllerCommand .refresh s fun c s => .next (s.beginRefresh c none)

/-- REFRESHD (spec/43_refresh.md rule R141): `DLY` is the operand. -/
def execRefreshd (d : Handle) (s : State) : Result :=
  controllerCommand (.refreshd d) s fun c s => .next (s.beginRefresh c (some d))

/-- Step 1 answered Ok: the line is low, and step 2 sends `[PAT, MASK]` in one call (rules R134, R136). -/
def State.shiftPayload (s : State) (c : Controller) : State :=
  (s.setController { c with strobe := .low, phase := .waitWrite }).log
    (.call c.th (.transportWrite [c.pat, c.mask]))

/-- Step 3 is called (rule R134). -/
def State.raiseStrobe (s : State) (c : Controller) : State :=
  (s.setController { c with strobe := .unknown, phase := .waitHigh }).log (.call c.sh .strobeHigh)

/-- Step 2 answered Ok: REFRESHD pauses, "the pause sits between the transport's Ok answer and the StrobeHigh call"
(rules R134, R142). -/
def State.afterWrite (s : State) (c : Controller) : State :=
  match c.dly with
  | none => s.raiseStrobe c
  | some d => (s.setController { c with phase := .waitDelay }).log (.call d (.delay s.cfg.delayUs))

/-- The end of a refresh: back to Idle with the response (rules R134, R138), `strobe` as given (a row that ends in an
error leaves it as it is); the payload elements are unspecified again (spec/10_state.md rule R30) and `DLY` is discarded (rule R143). -/
def State.endRefresh (s : State) (c : Controller) (strobe : Strobe) (r : Response) : State :=
  (s.setIdleController { c with strobe := strobe, phase := .idle }).respond r

/-- A collaborator's answer (the rows of rule R134 but the first). "Every other pair of phase and event has no
transition": an error has the type of the collaborator that was called (spec/60_exceptions.md rule R170), so an error
of the other type is no row either (notes/assumptions/8.md). -/
def answerRefresh (a : Answer) (c : Controller) (s : State) : Result :=
  match c.phase, a with
  | .idle, _ => .fault (.noTransition .idle)
  | .waitLow, .ok => .next ((s.log (.ans .ok)).shiftPayload c)
  | .waitLow, .pinErr e => .next ((s.log (.ans (.pinErr e))).endRefresh c c.strobe (.pinError e))
  | .waitLow, .transportErr _ => .fault (.noTransition .waitLow)
  | .waitWrite, .ok => .next ((s.log (.ans .ok)).afterWrite c)
  | .waitWrite, .pinErr _ => .fault (.noTransition .waitWrite)
  | .waitWrite, .transportErr e => .next ((s.log (.ans (.transportErr e))).endRefresh c c.strobe (.transportError e))
  | .waitDelay, .ok => .next ((s.log (.ans .ok)).raiseStrobe c)
  | .waitDelay, .pinErr _ => .fault (.noTransition .waitDelay)
  | .waitDelay, .transportErr _ => .fault (.noTransition .waitDelay)
  | .waitHigh, .ok => .next ((s.log (.ans .ok)).endRefresh c .high .ok)
  | .waitHigh, .pinErr e => .next ((s.log (.ans (.pinErr e))).endRefresh c c.strobe (.pinError e))
  | .waitHigh, .transportErr _ => .fault (.noTransition .waitHigh)

end Sys2Proof.Machine
end

