-- ==== Sys2Proof/Machine/Dispatch.lean ====
section
/-! DEFINITION. One arm per command: one direct call of its meaning. -/

namespace Sys2Proof.Machine

/-- The meaning of a command (spec/30_encoding.md rule R72 names each command's rule). -/
def exec (i : Instr) (s : State) : Host.Outcome State Fault Refusal :=
  match i with
  | .encc c => Sys2Proof.Machine.execEncc c s
  | .encd n => Sys2Proof.Machine.execEncd n s
  | .construct t sh => Sys2Proof.Machine.execConstruct t sh s
  | .release => Sys2Proof.Machine.execRelease s
  | .wchars w0 w1 w2 w3 => Sys2Proof.Machine.execWchars w0 w1 w2 w3 s
  | .wstr text => Sys2Proof.Machine.execWstr text s
  | .wnum n => Sys2Proof.Machine.execWnum n s
  | .refresh => Sys2Proof.Machine.execRefresh s
  | .refreshd d => Sys2Proof.Machine.execRefreshd d s
  | .illegalZero => Sys2Proof.Machine.execIllegalZero s
  | .illegalHigh op => Sys2Proof.Machine.execIllegalHigh op s

end Sys2Proof.Machine
end

