-- ==== Sys2Proof/Machine/Environment.lean ====
section
/-! DEFINITION. What a step does while the command port holds no complete frame: the environment's next event, or
none (spec/00_scope.md rule R11, spec/30_encoding.md rule R74, spec/43_refresh.md rules R134, R139). -/

namespace Sys2Proof.Machine

/-- An answer to the block. Only a controller has calls to be answered; without one the phase is Idle, which has no
row for an answer (spec/43_refresh.md rule R134). -/
def receiveAnswer (a : Answer) (s : State) : Result :=
  match s.life with
  | .active c => answerRefresh a c s
  | .unconstructed => .fault (.noTransition .idle)
  | .released => .fault (.noTransition .idle)

/-- No event is left: an idle block "keeps all its state" (spec/60_exceptions.md rule R173); a block that waits has no
step (spec/43_refresh.md rule R139). -/
def awaitEvent (s : State) : Result :=
  if s.phase = .idle then .next s else .fault (.hung s.phase)

/-- The next event of the environment. A byte joins those of its frame; "The decoder issues nothing until the last
byte of the frame has arrived" (spec/30_encoding.md rule R74). -/
def nextEvent (s : State) : Result :=
  match s.inbox with
  | [] => awaitEvent s
  | .byte b :: rest => .next { s with rx := s.rx ++ [b], inbox := rest }
  | .answer a :: rest => receiveAnswer a { s with inbox := rest }

/-- The host's bytes as events of the environment. -/
def hostSends (bs : List Byte) : List EnvEvent := bs.map .byte

end Sys2Proof.Machine
end

