-- ==== Sys2Proof/Machine/Step.lean ====
section
/-! DEFINITION. One step of the block. -/

namespace Sys2Proof.Machine

/-- One step: none once the fault mark is set (spec/10_state.md rule R35); a command whose frame has arrived whole is
issued at once (spec/30_encoding.md rule R74); otherwise the environment's next event. -/
def step (s : State) : Host.Outcome State Fault Refusal :=
  match s.fault with
  | some f => .fault (.stopped f)
  | none =>
    match decode s.rx with
    | .command i rest => exec i { s with rx := rest }
    | .incomplete => nextEvent s

/-- The state with the frame whose bits are `w` in the command port, where the decoder finds it at the next step. -/
def State.withFetchWord (s : State) (nbits w : Nat) : State := { s with rx := tableFrame nbits w }

end Sys2Proof.Machine
end

