-- ==== Sys2Proof/Machine/Wire.lean ====
section
/-! DEFINITION. The serial frame of one refresh, and what a trace says was sent and answered (spec/20_memory.md rules
R46, R47, R49, spec/30_encoding.md rule R66, spec/20_memory.md rule R45). -/

namespace Sys2Proof.Machine

/-- `FRAME = {PAT, MASK}`, 16 bits (spec/30_encoding.md rule R66). -/
def frameWord (pat mask : Byte) : BitVec 16 := pat ++ mask

/-- The bits of a byte in the order they are shifted out, most significant first (spec/20_memory.md rule R47). -/
def byteBits (b : Byte) : List Bool := (List.range 8).map fun k => b.getLsbD (7 - k)

/-- The serial bit sequence of the bytes of one transport write (rule R47). -/
def wireBits (bytes : List Byte) : List Bool := bytes.flatMap byteBits

/-- One bit shifted into a chain of 16 stages: the chain "holds the last 16 bits shifted"
(spec/92_eei_decisions.md D22). -/
def shiftIn (chain : BitVec 16) (b : Bool) : BitVec 16 := chain <<< 1 ||| (BitVec.ofBool b).zeroExtend 16

/-- A chain after a sequence of bits. -/
def shiftAll (chain : BitVec 16) (bits : List Bool) : BitVec 16 := bits.foldl shiftIn chain

/-- The register farther from the transport in a chain of two 8-bit registers. PRESUMED
(notes/assumptions/13.md). -/
def farRegister (chain : BitVec 16) : Byte := chain.extractLsb' 8 8

/-- The register nearer the transport. PRESUMED (notes/assumptions/13.md). -/
def nearRegister (chain : BitVec 16) : Byte := chain.extractLsb' 0 8

/-- The responses of a trace, in order. -/
def responses (tr : List Event) : List Response :=
  tr.filterMap fun e => match e with
    | .resp r => some r
    | .cmd _ => none
    | .call _ _ => none
    | .ans _ => none

/-- The collaborator calls of a trace, in order, with the handle each went to. -/
def calls (tr : List Event) : List (Handle × Call) :=
  tr.filterMap fun e => match e with
    | .call h c => some (h, c)
    | .cmd _ => none
    | .ans _ => none
    | .resp _ => none

/-- The payloads handed to the transport `th`, in order. -/
def payloads (th : Handle) (tr : List Event) : List (List Byte) :=
  (calls tr).filterMap fun hc => match hc.2 with
    | .transportWrite bs => if hc.1 = th then some bs else none
    | .strobeLow => none
    | .strobeHigh => none
    | .delay _ => none

/-- The spec's reference arrangement of the encoder's tables: one 36-entry ROM, digits at 0..9, letters at 10..35
(spec/20_memory.md rule R45). Not observable. -/
def romEntry (cfg : Config) (a : Fin 36) : Byte :=
  if h : a.val < 10 then cfg.digit ⟨a.val, h⟩ else cfg.letter ⟨a.val - 10, by omega⟩

end Sys2Proof.Machine
end

