-- ==== Sys2Proof/Machine/Display.lean ====
section
/-! DEFINITION. The optional observation of the shift-register chain and the display, outside the block: a function of
the event trace (spec/92_eei_decisions.md D22, spec/43_refresh.md rule R140, spec/70_reset_and_hazards.md rule R183).
It takes the platform's wiring and output latch as its premises (spec/70_reset_and_hazards.md rule R180). -/

namespace Sys2Proof.Machine

/-- The platform that is observed. -/
structure Platform where
  /-- The transport that feeds the chain. -/
  th : Handle
  /-- The strobe output that latches it. -/
  sh : Handle
  /-- Whether a latch edge that no pause precedes meets the latch's timing: the source does not say, so a claim covers
  both (spec/93_implementation_defined.md ID14, spec/70_reset_and_hazards.md rule R184). -/
  settles : Bool
  deriving DecidableEq, Repr

/-- What a trace shows of the chain on one transport and one strobe line. -/
structure Display where
  /-- The call to this transport or strobe line that is unanswered. -/
  pending : Option Call
  /-- The last 16 bits shifted; none: unknown (spec/20_memory.md rule R53). -/
  chain : Option (BitVec 16)
  /-- A pause was called since the last write. -/
  paused : Bool
  /-- The line's level as the answers show it. -/
  level : Strobe
  /-- The 16 bits the outputs hold; none: unknown. -/
  latched : Option (BitVec 16)
  deriving DecidableEq, Repr

/-- Before any call nothing is known. -/
def Display.initial : Display where
  pending := none
  chain := none
  paused := false
  level := .unknown
  latched := none

/-- The chain after a write that answered Ok. This block always writes two bytes (spec/43_refresh.md rule R136). -/
def writtenChain : List Byte → Option (BitVec 16)
  | [pat, mask] => some (frameWord pat mask)
  | _ => none

/-- The outputs after a StrobeHigh that answered Ok: they "change only on a Low-to-High strobe edge, which copies"
the chain (D22); an edge that may miss the latch's timing leaves them unknown (ID14). -/
def latchEdge (p : Platform) (d : Display) : Option (BitVec 16) :=
  match d.level with
  | .low => if p.settles || d.paused then d.chain else none
  | .high => d.latched
  | .unknown => none

/-- The answer to the pending call. "After a transport failure, or a failed or hung StrobeHigh, the latched pair is
unknown" (D22, spec/43_refresh.md rule R140), and the chain too after a transport failure (spec/20_memory.md rule R53). -/
def Display.answered (p : Platform) (d : Display) (a : Answer) : Display :=
  match d.pending, a with
  | some .strobeLow, .ok => { d with pending := none, level := .low }
  | some .strobeLow, _ => { d with pending := none, level := .unknown }
  | some (.transportWrite bs), .ok => { d with pending := none, chain := writtenChain bs }
  | some (.transportWrite _), _ => { d with pending := none, chain := none, latched := none }
  | some .strobeHigh, .ok => { d with pending := none, level := .high, latched := latchEdge p d }
  | some .strobeHigh, _ => { d with pending := none, level := .unknown, latched := none }
  | some (.delay _), _ => { d with pending := none }
  | none, _ => d

/-- A call: the chain waits on its answer where it sees the call. A write ends an earlier pause, and while it is
unanswered the chain is unknown: rule R53 says so only of a failed write. DESIGN CHOICE (notes/assumptions/12.md). -/
def Display.called (p : Platform) (d : Display) (h : Handle) (c : Call) : Display :=
  match c with
  | .strobeLow => if h = p.sh then { d with pending := some c } else { d with pending := none }
  | .strobeHigh => if h = p.sh then { d with pending := some c } else { d with pending := none }
  | .transportWrite _ =>
    if h = p.th then { d with pending := some c, chain := none, paused := false } else { d with pending := none }
  | .delay _ => { d with pending := none, paused := true }

/-- RELEASE hands both collaborators back, and the host may use the transport and drive the pin itself
(spec/41_lifecycle.md rule R105, spec/60_exceptions.md rule R165): with the transport the chain is unknown from then on,
with the strobe output the line's level and the outputs. DESIGN CHOICE (notes/assumptions/18.md). -/
def Display.released (p : Platform) (d : Display) (t s : Handle) : Display where
  pending := none
  chain := if t = p.th then none else d.chain
  paused := false
  level := if s = p.sh then .unknown else d.level
  latched := if s = p.sh then none else d.latched

/-- What a response shows of the chain: only that of a RELEASE does. -/
def Display.responded (p : Platform) (d : Display) : Response → Display
  | .okHandles t s => d.released p t s
  | .ok => d
  | .okPattern _ => d
  | .pinError _ => d
  | .transportError _ => d

/-- One event of the trace. -/
def Display.observe (p : Platform) (d : Display) : Event → Display
  | .cmd _ => d
  | .call h c => d.called p h c
  | .ans a => d.answered p a
  | .resp r => d.responded p r

/-- The display after a trace. -/
def observe (p : Platform) (tr : List Event) : Display := tr.foldl (Display.observe p) Display.initial

/-- The 16 bits the outputs are known to hold: unknown while a StrobeHigh hangs (rule R140). -/
def Display.shown (d : Display) : Option (BitVec 16) :=
  match d.pending with
  | some .strobeHigh => none
  | some .strobeLow => d.latched
  | some (.transportWrite _) => d.latched
  | some (.delay _) => d.latched
  | none => d.latched

/-- "digit i is lit with pattern p if and only if the latched mask is `mask(i)` and the latched pattern is p"
(D22). -/
def Display.digitShows (d : Display) (i : Slot) (p : Byte) : Prop :=
  d.shown = some (frameWord p (digitMask i))

end Sys2Proof.Machine
end

