-- ==== Sys2Proof/Machine/Flags.lean ====
section
/-! DEFINITION. The block has no flags, condition codes or status bits (spec/10_state.md rule R28): "The outcome of a
command is carried only in its response". This file gives the response's bytes (spec/30_encoding.md rule R77) and the
fault codes (spec/60_exceptions.md rule R155). -/

namespace Sys2Proof.Machine

/-- The status byte of a response (rule R77). -/
def Response.status : Response → Byte
  | .ok => 0x00#8
  | .okPattern _ => 0x00#8
  | .okHandles _ _ => 0x00#8
  | .pinError _ => 0x01#8
  | .transportError _ => 0x02#8

/-- The payload of a response (rule R77): handle words most significant byte first, as spec/95_test_vectors.md
section 7 writes them. A native error value's bytes are free (notes/assumptions/5.md). -/
def Response.payload : Response → List Byte
  | .ok => []
  | .okPattern p => [p]
  | .okHandles t s => wordBytes t ++ wordBytes s
  | .pinError e => Config.pinErrorBytes e
  | .transportError e => Config.transportErrorBytes e

/-- A response as bytes: "a status byte followed by an optional payload" (rule R77). -/
def Response.bytes (r : Response) : List Byte := r.status :: r.payload

/-- The code of a model fault (rule R155). -/
def FaultMark.code : FaultMark → Byte
  | .illegalCommand _ => 0x10#8
  | .digitRange _ => 0x11#8
  | .lifecycle _ => 0x12#8
  | .reentered _ => 0x13#8

/-- The recorded value of a model fault (rule R155). -/
def FaultMark.recorded : FaultMark → Nat
  | .illegalCommand op => op.toNat
  | .digitRange n => n.toNat
  | .lifecycle op => op.toNat
  | .reentered op => op.toNat

end Sys2Proof.Machine
end

