-- ==== Sys2Proof/Safety.lean ====
section
/-! DEFINITION. What counts as a safe run, and the invariant of the block that its every step keeps. -/

namespace Sys2Proof.Machine

/-- The call the block waits on, and the handle it went to (spec/10_state.md rules R29, R39). The delay of WaitDelay
goes to `DLY`. -/
def Controller.pendingCall (c : Controller) (delayUs : Nat) : Option Event :=
  match c.phase with
  | .idle => none
  | .waitLow => some (.call c.sh .strobeLow)
  | .waitWrite => some (.call c.th (.transportWrite [c.pat, c.mask]))
  | .waitDelay => c.dly.map fun d => .call d (.delay delayUs)
  | .waitHigh => some (.call c.sh .strobeHigh)

/-- A one-hot byte in bits 3..0 (spec/10_state.md rule R18, spec/30_encoding.md rule R65). -/
def oneHotMask (m : Byte) : Bool := m == 0x08#8 || m == 0x04#8 || m == 0x02#8 || m == 0x01#8

/-- What the strobe element holds in each Wait phase (spec/43_refresh.md rules R134, R140), and that only a REFRESHD,
whose `DLY` is not none, waits on a delay. -/
def Controller.phaseWf (c : Controller) : Bool :=
  match c.phase with
  | .idle => true
  | .waitLow => c.strobe == .unknown
  | .waitWrite => c.strobe == .low
  | .waitDelay => c.strobe == .low && c.dly.isSome
  | .waitHigh => c.strobe == .unknown

/-- The controller's invariant: the back buffer in canonical form, `MASK` one-hot, the phase consistent. -/
def Controller.wf (c : Controller) : Bool := c.bb.wf && oneHotMask c.mask && c.phaseWf

/-- While a refresh waits, the last event of the trace is the call it waits on: "Each call is followed by exactly one
answer, or by no further event" (spec/20_memory.md rule R49). -/
def Controller.waitsOn (c : Controller) (delayUs : Nat) (tr : List Event) : Bool :=
  match c.phase with
  | .idle => true
  | _ => tr.getLast? == c.pendingCall delayUs

/-- The invariant of the block. The clause about the trace is for a state with no fault mark: the command that faults
F_REENTERED is itself an event after the pending call (spec/60_exceptions.md rule R157). -/
structure State.Inv (s : State) : Prop where
  cfg_wf : s.cfg.wf = true
  controller_wf : ∀ c, s.life = .active c → c.wf = true
  waits_on : ∀ c, s.life = .active c → s.fault = none → c.waitsOn s.cfg.delayUs s.trace = true

/-- "A state with a fault recorded is not a final state of a run" (spec/60_exceptions.md rule R152). Which states
without a fault mark are final the rule does not say: those with no refresh in progress and nothing left of the
environment's input, neither an event nor a byte of a frame. DESIGN CHOICE (notes/assumptions/19.md). -/
def State.final (s : State) : Bool :=
  s.fault.isNone && s.phase == .idle && s.inbox == [] && s.rx == []

/-- Where `step` has no next state although no fault mark is set: a hang, or an answer that R134 has no row for. -/
def State.stuck (s : State) : Bool :=
  s.fault.isNone &&
    match step s with
    | .next _ => false
    | .fault _ => true
    | .refused _ => true

/-- No fault mark and no command in progress: the conditions under which a command passes the checks that every
command makes (spec/41_lifecycle.md rule R100). -/
abbrev State.Ready (s : State) : Prop := s.fault = none ∧ s.phase = .idle

/-- Ready, with `life` Active and the controller's elements `c`. -/
abbrev State.ReadyWith (s : State) (c : Controller) : Prop :=
  s.fault = none ∧ s.life = .active c ∧ c.phase = .idle

/-- `life ≠ Active`. -/
abbrev State.NoController (s : State) : Prop := s.life = .unconstructed ∨ s.life = .released

/-- The block has no fault mark, its controller is `c`, the command port holds no complete frame, and the
collaborator's answer `a` is what comes next. -/
abbrev State.Receives (s : State) (c : Controller) (a : Answer) (later : List EnvEvent) : Prop :=
  s.fault = none ∧ s.life = .active c ∧ decode s.rx = .incomplete ∧ s.inbox = .answer a :: later

/-- A whole frame of the command `i` is in the command port, and the bytes after it make no complete frame. -/
abbrev State.Issues (s : State) (i : Instr) (rest : List Byte) : Prop :=
  decode s.rx = .command i rest ∧ decode rest = .incomplete

/-- `n` steps, as Host.Core.run takes them: stopping at the first step that has no next state. -/
def runSteps : Nat → State → Result
  | 0, s => .next s
  | n + 1, s =>
    match step s with
    | .next t => runSteps n t
    | .fault f => .fault f
    | .refused r => .refused r

/-- `t` is `s` after a refresh of the controller `c` that has ended: the events in the trace, the level the block
knows of the strobe line, the cursor advanced, the buffer and the handles as they were, the environment's events and
bytes that are left (spec/43_refresh.md rule R140). -/
def EndsRefresh (s t : State) (c : Controller) (events : List Event) (level : Strobe) (later : List EnvEvent)
    (rest : List Byte) : Prop :=
  t.trace = s.trace ++ events ∧ t.fault = none ∧ t.inbox = later ∧ t.rx = rest ∧ t.cfg = s.cfg ∧
    ∃ c', t.life = .active c' ∧ c'.th = c.th ∧ c'.sh = c.sh ∧ c'.bb = c.bb ∧
      c'.cursor.toNat = (c.cursor.toNat + 1) % 4 ∧ c'.phase = .idle ∧ c'.strobe = level

/-- The four slots of a back buffer, leftmost first. -/
abbrev slotsAre (m : Memory) (p0 p1 p2 p3 : Byte) : Prop :=
  readSlot m 0#2 = p0 ∧ readSlot m 1#2 = p1 ∧ readSlot m 2#2 = p2 ∧ readSlot m 3#2 = p3

end Sys2Proof.Machine

namespace Sys2Proof

/-- A reserved row of the opcode map (spec/30_encoding.md rule R75). -/
def Instr.isReserved : Instr → Bool
  | .encc _ => false
  | .encd _ => false
  | .construct _ _ => false
  | .release => false
  | .wchars _ _ _ _ => false
  | .wstr _ => false
  | .wnum _ => false
  | .refresh => false
  | .refreshd _ => false
  | .illegalZero => true
  | .illegalHigh _ => true

/-- A command that needs `life = Active`: "{RELEASE, WCHARS, WSTR, WNUM, REFRESH, REFRESHD}"
(spec/41_lifecycle.md rule R100). -/
def Instr.needsController : Instr → Bool
  | .encc _ => false
  | .encd _ => false
  | .construct _ _ => false
  | .release => true
  | .wchars _ _ _ _ => true
  | .wstr _ => true
  | .wnum _ => true
  | .refresh => true
  | .refreshd _ => true
  | .illegalZero => false
  | .illegalHigh _ => false

/-- WCHARS, WSTR, WNUM (spec/42_buffer_writes.md rule R110). -/
def Instr.isBufferWrite : Instr → Bool
  | .encc _ => false
  | .encd _ => false
  | .construct _ _ => false
  | .release => false
  | .wchars _ _ _ _ => true
  | .wstr _ => true
  | .wnum _ => true
  | .refresh => false
  | .refreshd _ => false
  | .illegalZero => false
  | .illegalHigh _ => false

/-- REFRESH, REFRESHD (spec/43_refresh.md). -/
def Instr.isRefresh : Instr → Bool
  | .encc _ => false
  | .encd _ => false
  | .construct _ _ => false
  | .release => false
  | .wchars _ _ _ _ => false
  | .wstr _ => false
  | .wnum _ => false
  | .refresh => true
  | .refreshd _ => true
  | .illegalZero => false
  | .illegalHigh _ => false

end Sys2Proof
end

