-- ==== Sys2Proof/Certificates/Slice0/Obligations.lean ====
section
/-! DEFINITION. The statements about the block, from the numbered rules of spec/. Each holds for every table, every
reading of WNUM and every pause (`State.cfg` is arbitrary), and for every script of the environment. -/

open Sys2Proof Sys2Proof.Machine

/-! ## Frames -/

/-- Rules R71, R72, R75: the decoder reads back every well-formed command from its frame, every operand at every
value, whatever bytes follow. -/
def Obligations.DecodeReadsBackEncode : Prop :=
  ∀ (i : Instr) (rest : List Byte), i.wf = true → decode (encode i ++ rest) = .command i rest

/-- Rules R71, R72, R75, R76: what the decoder reads is a well-formed command, and the bytes it consumed are that
command's frame; so each frame has one meaning. -/
def Obligations.DecodedBytesAreTheFrame : Prop :=
  ∀ (bs : List Byte) (i : Instr) (rest : List Byte),
    decode bs = .command i rest → i.wf = true ∧ encode i ++ rest = bs

/-- Rule R74, its three sentences: the frame's length is found from the first byte alone, but for WSTR, which needs
the word L; a string that ends before its frame is complete is not yet a command, and one that holds its frame is one;
nothing is issued until the last byte has arrived. That the step which receives a byte, be it a frame's last, only moves
it from `inbox` to `rx`, and the next step issues the command, is the model's choice (DESIGN CHOICE,
notes/assumptions/2.md). -/
def Obligations.FrameLengthFoundAtFront : Prop :=
  (∀ (op : Byte) (r r' : List Byte), op ≠ 0x06#8 → frameLength (op :: r) = frameLength (op :: r')) ∧
  (∀ (b3 b2 b1 b0 : Byte) (r : List Byte),
    frameLength (0x06#8 :: b3 :: b2 :: b1 :: b0 :: r) = some (5 + 4 * (b3 ++ b2 ++ b1 ++ b0 : BitVec 32).toNat)) ∧
  (∀ bs : List Byte, frameLength bs = none → decode bs = .incomplete) ∧
  (∀ (bs : List Byte) (n : Nat), frameLength bs = some n → bs.length < n → decode bs = .incomplete) ∧
  (∀ (bs : List Byte) (n : Nat), frameLength bs = some n → n ≤ bs.length → ∃ i, decode bs = .command i (bs.drop n)) ∧
  (∀ (s : State) (b : Byte) (later : List EnvEvent),
    s.fault = none → decode s.rx = .incomplete → s.inbox = .byte b :: later →
    step s = .next { s with rx := s.rx ++ [b], inbox := later })

/-- Rules R75 and R154: a reserved opcode is a one-byte frame; issuing it, in any phase and any lifecycle, records
F_ILLEGAL_COMMAND (0x10) with the opcode byte and changes nothing else (the command itself is an event of the trace,
rule R49). -/
def Obligations.ReservedOpcodesFault : Prop :=
  ∀ (op : Byte) (rest : List Byte), (op = 0x00#8 ∨ 0x0A ≤ op.toNat) →
    ∃ i, decode (op :: rest) = .command i rest ∧ i.opcode = op ∧
      (FaultMark.illegalCommand op).code = 0x10#8 ∧ (FaultMark.illegalCommand op).recorded = op.toNat ∧
      ∀ s : State, s.fault = none →
        exec i s = .next { s with fault := some (.illegalCommand op), trace := s.trace ++ [.cmd i] }

/-- Rules R75, R154: each reserved row of the opcode map completes by taking the fault the spec names as its whole
effect. -/
def Obligations.ReservedRowsComplete : Prop :=
  ∀ (s : State), s.fault = none →
    exec .illegalZero s =
      .next { s with fault := some (.illegalCommand 0x00#8), trace := s.trace ++ [.cmd .illegalZero] } ∧
    ∀ op : Byte, exec (.illegalHigh op) s =
      .next { s with fault := some (.illegalCommand op), trace := s.trace ++ [.cmd (.illegalHigh op)] }

/-- A few frames of spec/95_test_vectors.md, byte for byte, with the command each stands for. -/
def Obligations.SpecFramesDecode : Prop :=
  decode [0x01#8, 0x00#8, 0x00#8, 0x00#8, 0x2D#8] = .command (.encc 0x2D#32) [] ∧
  decode [0x02#8, 0x00#8, 0x00#8, 0x00#8, 0x09#8] = .command (.encd 9#32) [] ∧
  decode [0x03#8, 0x00#8, 0x00#8, 0x00#8, 0x01#8, 0x00#8, 0x00#8, 0x00#8, 0x02#8, 0x05#8]
    = .command (.construct 1#32 2#32) [0x05#8] ∧
  decode [0xFF#8, 0x08#8] = .command (.illegalHigh 0xFF#8) [0x08#8] ∧
  decode [0x07#8, 0x00#8, 0x00#8] = .incomplete ∧
  decode [0x06#8, 0x00#8, 0x00#8, 0x00#8, 0x00#8, 0x08#8] = .command (.wstr []) [0x08#8]

/-- A step runs the decoded command: when the bytes received begin with a whole frame and there is no fault mark, the
step is the command's meaning at the state whose frame has been consumed. That bytes arrive through `rx` is the model's
choice (notes/assumptions/2.md). -/
def Obligations.StepRunsTheDecodedCommand : Prop :=
  ∀ (s : State) (i : Instr) (rest : List Byte),
    s.fault = none → decode s.rx = .command i rest → step s = exec i { s with rx := rest }

/-! ## Encoder -/

/-- Rule R88: ENCC answers `encode_char` of its operand in every lifecycle state, and changes nothing but the
trace. -/
def Obligations.EnccResponds : Prop :=
  ∀ (s : State) (c : Word), s.Ready →
    exec (.encc c) s =
      .next { s with trace := s.trace ++ [.cmd (.encc c), .resp (.okPattern (encodeChar s.cfg c))] }

/-- Rule R87: `encode_char` on every class of code. -/
def Obligations.EncodeCharByClass : Prop :=
  ∀ cfg : Config,
    (∀ (k : Fin 10) (c : Word), c.toNat = 0x30 + k → encodeChar cfg c = cfg.digitRom[k]) ∧
    (∀ (k : Fin 26) (c : Word), c.toNat = 0x41 + k → encodeChar cfg c = cfg.letterRom[k]) ∧
    (∀ (k : Fin 26) (c : Word), c.toNat = 0x61 + k → encodeChar cfg c = cfg.letterRom[k]) ∧
    encodeChar cfg 0x20#32 = 0xFF#8 ∧ encodeChar cfg 0x2D#32 = 0xBF#8 ∧ encodeChar cfg 0x5F#32 = 0xF7#8 ∧
    ∀ c : Word, ¬ (0x30 ≤ c.toNat ∧ c.toNat ≤ 0x39) → ¬ (0x41 ≤ c.toNat ∧ c.toNat ≤ 0x5A) →
      ¬ (0x61 ≤ c.toNat ∧ c.toNat ≤ 0x7A) → c ≠ 0x20#32 → c ≠ 0x2D#32 → c ≠ 0x5F#32 →
      encodeChar cfg c = 0xFF#8

/-- Rule R94, its four properties, for every choice of the tables. -/
def Obligations.EncoderProperties : Prop :=
  ∀ (cfg : Config) (c : Word),
    (0x30 ≤ c.toNat ∧ c.toNat ≤ 0x39 → some (encodeChar cfg c) = encodeDigit cfg (c - 0x30#32)) ∧
    (0x41 ≤ c.toNat ∧ c.toNat ≤ 0x5A → encodeChar cfg (c + 0x20#32) = encodeChar cfg c) ∧
    encodeChar cfg 0x20#32 = 0xFF#8 ∧
    (classify c = .other → encodeChar cfg c = 0xFF#8)

/-- Rules R82, R95: 'U', 'u', 'V' and 'v' give one pattern. The premise is rule R82's constraint on the table, a
clause of the invariant. -/
def Obligations.UAndVShareAPattern : Prop :=
  ∀ cfg : Config, cfg.letterRom[20] = cfg.letterRom[21] →
    encodeChar cfg 0x55#32 = encodeChar cfg 0x56#32 ∧ encodeChar cfg 0x75#32 = encodeChar cfg 0x55#32 ∧
    encodeChar cfg 0x76#32 = encodeChar cfg 0x55#32

/-- Rules R89, R91: ENCD of 0..9 answers the digit table's entry in every lifecycle state, and changes nothing but
the trace. -/
def Obligations.EncdResponds : Prop :=
  ∀ (s : State) (k : Fin 10), s.Ready →
    exec (.encd (BitVec.ofNat 32 k)) s =
      .next { s with trace := s.trace ++ [.cmd (.encd (BitVec.ofNat 32 k)), .resp (.okPattern s.cfg.digitRom[k])] }

/-- Rule R90: for n ≥ 10 the command records F_DIGIT_RANGE with n and returns no value. -/
def Obligations.EncdOutOfRangeFaults : Prop :=
  ∀ (s : State) (n : Word), s.Ready → 10 ≤ n.toNat →
    encodeDigit s.cfg n = none ∧
    exec (.encd n) s = .next { s with fault := some (.digitRange n), trace := s.trace ++ [.cmd (.encd n)] }

/-- Rule R63: the three fixed patterns, bit for bit, the segments they light, and that BLANK is the pattern of space
and of every unmapped symbol. -/
def Obligations.FixedPatternsLight : Prop :=
  blank = 0xFF#8 ∧ minusPattern = 0xBF#8 ∧ underscorePattern = 0xF7#8 ∧
  (∀ x : Segment, (lit blank x = false) ∧ (lit minusPattern x = true ↔ x = .g) ∧
    (lit underscorePattern x = true ↔ x = .d)) ∧
  ∀ (cfg : Config) (c : Word), c = 0x20#32 ∨ classify c = .other → encodeChar cfg c = blank

/-! ## Lifecycle -/

/-- Rules R101, R176: CONSTRUCT without a controller leaves exactly the state of the reset table; `PAT`, `MASK` and
`DLY` are whatever they are, and the model's counter of draws moves on (notes/assumptions/4.md). -/
def Obligations.ConstructEstablishesResetState : Prop :=
  ∀ (s : State) (t sh : Handle), s.fault = none → s.NoController →
    ∃ c : Controller,
      exec (.construct t sh) s =
        .next { s with life := .active c, trace := s.trace ++ [.cmd (.construct t sh), .resp .ok],
                       draws := s.draws + 1 } ∧
      c.th = t ∧ c.sh = sh ∧ (∀ i : Slot, readSlot c.bb i = 0xFF#8) ∧ c.cursor = 0#2 ∧ c.phase = .idle ∧
      c.strobe = .unknown

/-- Rule R105: RELEASE answers the handles and the controller's elements cease to exist; no call is made. -/
def Obligations.ReleaseReturnsHandles : Prop :=
  ∀ (s : State) (c : Controller), s.ReadyWith c →
    exec .release s =
      .next { s with life := .released, trace := s.trace ++ [.cmd .release, .resp (.okHandles c.th c.sh)] }

/-- Rule R106: a CONSTRUCT that does not fault takes exactly its operands, and no step changes the handles a
controller took, but the RELEASE that returns exactly them. -/
def Obligations.HandlesKeptUntilReleased : Prop :=
  (∀ (s t : State) (h k : Handle), exec (.construct h k) s = .next t → t.fault = none →
    ∃ c, t.life = .active c ∧ c.th = h ∧ c.sh = k) ∧
  (∀ (s t : State) (c : Controller), s.life = .active c → step s = .next t →
    (∃ c', t.life = .active c' ∧ c'.th = c.th ∧ c'.sh = c.sh) ∨
    (t.life = .released ∧ t.trace = s.trace ++ [.cmd .release, .resp (.okHandles c.th c.sh)]))

/-- Rules R100, R156: a command of the controller without a controller, and CONSTRUCT with one, record F_LIFECYCLE
(0x12) with the opcode and change nothing else. -/
def Obligations.MisuseOfLifecycleFaults : Prop :=
  (∀ op : Byte, (FaultMark.lifecycle op).code = 0x12#8 ∧ (FaultMark.lifecycle op).recorded = op.toNat) ∧
  (∀ (s : State) (i : Instr), s.fault = none → s.NoController → i.needsController = true →
    exec i s = .next { s with fault := some (.lifecycle i.opcode), trace := s.trace ++ [.cmd i] }) ∧
  (∀ (s : State) (c : Controller) (t sh : Handle), s.ReadyWith c →
    exec (.construct t sh) s =
      .next { s with fault := some (.lifecycle 0x03#8), trace := s.trace ++ [.cmd (.construct t sh)] })

/-- Rules R157, R161: a command issued while a refresh waits records F_REENTERED (0x13) with the opcode and changes
nothing else, whatever the command's own operands; only a reserved opcode faults before it. -/
def Obligations.CommandDuringRefreshFaults : Prop :=
  ∀ (s : State) (i : Instr), s.fault = none → s.phase ≠ .idle → i.isReserved = false →
    (FaultMark.reentered i.opcode).code = 0x13#8 ∧ (FaultMark.reentered i.opcode).recorded = i.opcode.toNat ∧
    exec i s = .next { s with fault := some (.reentered i.opcode), trace := s.trace ++ [.cmd i] }

/-- Rule R107: without a controller no step makes a collaborator call, every controller command faults F_LIFECYCLE,
ENCC and ENCD still answer, and CONSTRUCT does not fault and makes a controller of its operands. -/
def Obligations.NoCallsWithoutController : Prop :=
  ∀ s : State, s.NoController →
    (∀ t : State, step s = .next t → calls t.trace = calls s.trace) ∧
    (∀ i : Instr, s.fault = none → i.needsController = true →
      exec i s = .next { s with fault := some (.lifecycle i.opcode), trace := s.trace ++ [.cmd i] }) ∧
    (∀ c : Word, s.fault = none →
      exec (.encc c) s =
        .next { s with trace := s.trace ++ [.cmd (.encc c), .resp (.okPattern (encodeChar s.cfg c))] }) ∧
    (∀ k : Fin 10, s.fault = none →
      exec (.encd (BitVec.ofNat 32 k)) s =
        .next { s with trace := s.trace ++ [.cmd (.encd (BitVec.ofNat 32 k)), .resp (.okPattern s.cfg.digitRom[k])] }) ∧
    (∀ t sh : Handle, s.fault = none →
      ∃ (u : State) (c : Controller), exec (.construct t sh) s = .next u ∧ u.fault = none ∧
        u.trace = s.trace ++ [.cmd (.construct t sh), .resp .ok] ∧ u.life = .active c ∧ c.th = t ∧ c.sh = sh)

/-- Rule R177: the state at power-up, which is the model's `State.reset` (DEDUCED,
notes/assumptions/1.md), and that only
CONSTRUCT, ENCC and ENCD are then legal, whatever the parameters: any other command faults, and those three do not
(ENCD for its legal digits). -/
def Obligations.PowerUpState : Prop :=
  State.reset.life = .unconstructed ∧ State.reset.phase = .idle ∧ State.reset.fault = none ∧
  (∀ (cfg : Config) (i : Instr) (t : State), exec i { State.reset with cfg := cfg } = .next t → t.fault = none →
    (∃ t sh, i = .construct t sh) ∨ (∃ c, i = .encc c) ∨ (∃ n, i = .encd n ∧ n.toNat ≤ 9)) ∧
  (∀ (cfg : Config) (t sh c : Word) (k : Fin 10),
    (∃ u, exec (.construct t sh) { State.reset with cfg := cfg } = .next u ∧ u.fault = none) ∧
    (∃ u, exec (.encc c) { State.reset with cfg := cfg } = .next u ∧ u.fault = none) ∧
    (∃ u, exec (.encd (BitVec.ofNat 32 k)) { State.reset with cfg := cfg } = .next u ∧ u.fault = none))

/-! ## Buffer writes -/

/-- Rule R113: WCHARS completes with slot i holding `encode_char` of the i-th character, and changes nothing else of
the controller. -/
def Obligations.WcharsFillsSlots : Prop :=
  ∀ (s : State) (c : Controller) (w0 w1 w2 w3 : Word), s.ReadyWith c →
    ∃ bb : Memory,
      exec (.wchars w0 w1 w2 w3) s =
        .next { s with life := .active { c with bb := bb },
                       trace := s.trace ++ [.cmd (.wchars w0 w1 w2 w3), .resp .ok] } ∧
      slotsAre bb (encodeChar s.cfg w0) (encodeChar s.cfg w1) (encodeChar s.cfg w2) (encodeChar s.cfg w3)

/-- Rules R117, R119: WSTR completes with the first characters of the text from the left, at most four, and 0xFF in
every slot beyond them, whatever the buffer held. -/
def Obligations.WstrTruncatesAndPads : Prop :=
  ∀ (s : State) (c : Controller) (text : List Word), s.ReadyWith c →
    ∃ bb : Memory,
      exec (.wstr text) s =
        .next { s with life := .active { c with bb := bb }, trace := s.trace ++ [.cmd (.wstr text), .resp .ok] } ∧
      (∀ i : Slot, ∀ h : i.toNat < text.length, readSlot bb i = encodeChar s.cfg text[i.toNat]) ∧
      (∀ i : Slot, text.length ≤ i.toNat → readSlot bb i = 0xFF#8)

/-- Rules R121, R122: WNUM completes with the four decimal digits of the clamped number, thousands in slot 0. The
number is read by `NUM_SIGNED`; a negative one clamps to 0 and one above 9999 to 9999. -/
def Obligations.WnumWritesDigits : Prop :=
  ∀ (s : State) (c : Controller) (n : Word), s.ReadyWith c →
    ∃ (bb : Memory) (d0 d1 d2 d3 : Fin 10),
      exec (.wnum n) s =
        .next { s with life := .active { c with bb := bb }, trace := s.trace ++ [.cmd (.wnum n), .resp .ok] } ∧
      slotsAre bb s.cfg.digitRom[d0] s.cfg.digitRom[d1] s.cfg.digitRom[d2] s.cfg.digitRom[d3] ∧
      1000 * d0.val + 100 * d1.val + 10 * d2.val + d3.val =
        if s.cfg.numSigned = true ∧ n.toInt < 0 then 0 else min n.toNat 9999

/-- Rule R123: WNUM 7 writes the patterns of 0, 0, 0, 7 and answers OK, and every number above 9999 (as it is read)
behaves as WNUM 9999: the same state and the same response, but for the operand in its own command event. -/
def Obligations.WnumSevenAndClamp : Prop :=
  (∀ (s : State) (c : Controller), s.ReadyWith c →
    ∃ bb : Memory,
      exec (.wnum 7#32) s =
        .next { s with life := .active { c with bb := bb }, trace := s.trace ++ [.cmd (.wnum 7#32), .resp .ok] } ∧
      some (readSlot bb 0#2) = encodeDigit s.cfg 0#32 ∧ some (readSlot bb 1#2) = encodeDigit s.cfg 0#32 ∧
      some (readSlot bb 2#2) = encodeDigit s.cfg 0#32 ∧ some (readSlot bb 3#2) = encodeDigit s.cfg 7#32) ∧
  (∀ (s : State) (c : Controller) (n : Word), s.ReadyWith c →
    (if s.cfg.numSigned = true then n.toInt else (n.toNat : Int)) > 9999 →
    ∃ t : State, exec (.wnum 9999#32) s = .next t ∧
      t.trace = s.trace ++ [.cmd (.wnum 9999#32), .resp .ok] ∧
      exec (.wnum n) s = .next { t with trace := s.trace ++ [.cmd (.wnum n), .resp .ok] })

/-- Rule R110: a buffer write that does not fault changes only `BB`: every other element of the controller and of the
state stays, no call is made and no error is answered; the canonical memory (notes/assumptions/10.md) lists nothing
outside the four slots before and after. -/
def Obligations.BufferWriteFrame : Prop :=
  ∀ (s t : State) (c : Controller) (i : Instr), s.Inv → s.life = .active c → i.isBufferWrite = true →
    exec i s = .next t → t.fault = none →
    ∃ bb : Memory,
      t = { s with life := .active { c with bb := bb }, trace := s.trace ++ [.cmd i, .resp .ok] } ∧
      bb.wf = true ∧ ∀ a : Nat, 4 ≤ a → readAt bb a = readAt c.bb a

/-- Rule R52: the write commands are idempotent: issuing one twice leaves the same slots as issuing it once. -/
def Obligations.BufferWritesAreIdempotent : Prop :=
  ∀ (s t : State) (i : Instr) (c c' : Controller), s.ReadyWith c → i.isBufferWrite = true →
    exec i s = .next t → t.life = .active c' →
    ∃ (u : State) (c'' : Controller), exec i t = .next u ∧ u.life = .active c'' ∧
      ∀ j : Slot, readSlot c''.bb j = readSlot c'.bb j

/-- Rule R20: "mutated only by the write* operations": while a controller lives, a step that issues no WCHARS, WSTR
or WNUM leaves every index of the back buffer as it was. -/
def Obligations.OnlyWritesChangeBuffer : Prop :=
  ∀ (s t : State) (c c' : Controller), s.life = .active c → step s = .next t → t.life = .active c' →
    (∀ i rest, decode s.rx = .command i rest → i.isBufferWrite = false) →
    ∀ a : Nat, readAt c'.bb a = readAt c.bb a

/-! ## Refresh -/

/-- Rule R65: the four masks; each is one-hot in bits 3..0. -/
def Obligations.DigitMasksAreOneHot : Prop :=
  digitMask 0#2 = 0x08#8 ∧ digitMask 1#2 = 0x04#8 ∧ digitMask 2#2 = 0x02#8 ∧ digitMask 3#2 = 0x01#8 ∧
  ∀ c : Slot, ∃ k : Nat, k < 4 ∧ digitMask c = 1#8 <<< k ∧ ∀ j : Nat, (digitMask c).getLsbD j = decide (j = k)

/-- Rules R131, R27, R130: REFRESH completes its command step by capturing the payload of the cursor's slot and the
mask of the cursor as it was, advancing the cursor, and only then calling StrobeLow; nothing else changes. -/
def Obligations.RefreshCapturesThenAdvances : Prop :=
  ∀ (s : State) (c : Controller), s.ReadyWith c →
    exec .refresh s =
      .next { s with
        life := .active { c with
          pat := readSlot c.bb c.cursor
          mask := 1#8 <<< (3 - c.cursor.toNat)
          dly := none
          cursor := BitVec.ofNat 2 ((c.cursor.toNat + 1) % 4)
          strobe := .unknown
          phase := .waitLow }
        trace := s.trace ++ [.cmd .refresh, .call c.sh .strobeLow] }

/-- Rules R141, R131: REFRESHD is the same with `DLY` its operand. -/
def Obligations.RefreshdCapturesThenAdvances : Prop :=
  ∀ (s : State) (c : Controller) (d : Handle), s.ReadyWith c →
    exec (.refreshd d) s =
      .next { s with
        life := .active { c with
          pat := readSlot c.bb c.cursor
          mask := 1#8 <<< (3 - c.cursor.toNat)
          dly := some d
          cursor := BitVec.ofNat 2 ((c.cursor.toNat + 1) % 4)
          strobe := .unknown
          phase := .waitLow }
        trace := s.trace ++ [.cmd (.refreshd d), .call c.sh .strobeLow] }

/-- Rule R134, the rows that go on to a further call: WaitLow Ok, WaitWrite Ok with and without a delay, WaitDelay
Ok. -/
def Obligations.AnswersMoveRefreshOn : Prop :=
  ∀ (s : State) (c : Controller) (later : List EnvEvent), s.Receives c .ok later →
    (c.phase = .waitLow → step s = .next { s with
      life := .active { c with strobe := .low, phase := .waitWrite }
      inbox := later
      trace := s.trace ++ [.ans .ok, .call c.th (.transportWrite [c.pat, c.mask])] }) ∧
    (c.phase = .waitWrite → c.dly = none → step s = .next { s with
      life := .active { c with strobe := .unknown, phase := .waitHigh }
      inbox := later
      trace := s.trace ++ [.ans .ok, .call c.sh .strobeHigh] }) ∧
    (∀ d, c.phase = .waitWrite → c.dly = some d → step s = .next { s with
      life := .active { c with phase := .waitDelay }
      inbox := later
      trace := s.trace ++ [.ans .ok, .call d (.delay s.cfg.delayUs)] }) ∧
    (c.phase = .waitDelay → step s = .next { s with
      life := .active { c with strobe := .unknown, phase := .waitHigh }
      inbox := later
      trace := s.trace ++ [.ans .ok, .call c.sh .strobeHigh] })

/-- Rule R134, the rows that end the command: the response, the phase Idle, `strobe` High after the last Ok and as it
was after an error. `PAT`, `MASK` and `DLY`, unspecified outside a refresh (rule R30), then hold some value, drawn anew,
and the model's counter of draws moves on (DESIGN CHOICE, notes/assumptions/4.md); every other element of the block
stays. -/
def Obligations.AnswersEndRefresh : Prop :=
  ∀ (s : State) (c : Controller) (later : List EnvEvent),
    let ends (a : Answer) (level : Strobe) (r : Response) : Prop :=
      ∃ pat mask dly, step s = .next { s with
        life := .active { c with strobe := level, phase := .idle, pat := pat, mask := mask, dly := dly }
        inbox := later
        trace := s.trace ++ [.ans a, .resp r]
        draws := s.draws + 1 }
    (∀ e, s.Receives c (.pinErr e) later → c.phase = .waitLow → ends (.pinErr e) c.strobe (.pinError e)) ∧
    (∀ e, s.Receives c (.transportErr e) later → c.phase = .waitWrite →
      ends (.transportErr e) c.strobe (.transportError e)) ∧
    (s.Receives c .ok later → c.phase = .waitHigh → ends .ok .high .ok) ∧
    (∀ e, s.Receives c (.pinErr e) later → c.phase = .waitHigh → ends (.pinErr e) c.strobe (.pinError e))

/-- Rules R134, R143, R170: "Every other pair of phase and event has no transition": an answer while no call is
outstanding, an error answer to Delay, a transport error to a strobe call and a pin error to a write have no next state:
the Lean fault `noTransition`, the model's form (notes/assumptions/8.md). -/
def Obligations.OtherAnswersHaveNoTransition : Prop :=
  (∀ (s : State) (a : Answer) (later : List EnvEvent), s.fault = none → decode s.rx = .incomplete →
    s.inbox = .answer a :: later → s.phase = .idle → step s = .fault (.noTransition .idle)) ∧
  (∀ (s : State) (c : Controller) (e : EP) (later : List EnvEvent), s.Receives c (.pinErr e) later →
    c.phase = .waitDelay ∨ c.phase = .waitWrite → step s = .fault (.noTransition c.phase)) ∧
  (∀ (s : State) (c : Controller) (e : ET) (later : List EnvEvent), s.Receives c (.transportErr e) later →
    c.phase = .waitDelay ∨ c.phase = .waitLow ∨ c.phase = .waitHigh → step s = .fault (.noTransition c.phase))

/-- Rule R139: a call that is never answered leaves the block in its Wait phase with no step, whichever phase. That
"no step" is the Lean fault `hung` is the model's form (notes/assumptions/7.md). -/
def Obligations.UnansweredCallHangs : Prop :=
  ∀ s : State, s.fault = none → s.phase ≠ .idle → decode s.rx = .incomplete → s.inbox = [] →
    step s = .fault (.hung s.phase)

/-- Rule R137: a refresh that passes its precheck has advanced the cursor before its first call, and no answer, of
success or of failure, moves it again. -/
def Obligations.CursorAdvancesWhateverHappens : Prop :=
  (∀ (s : State) (c : Controller) (i : Instr), s.ReadyWith c → i.isRefresh = true →
    ∃ (t : State) (c' : Controller), exec i s = .next t ∧ t.life = .active c' ∧
      c'.cursor.toNat = (c.cursor.toNat + 1) % 4) ∧
  (∀ (s t : State) (c : Controller) (a : Answer) (later : List EnvEvent), s.Receives c a later → step s = .next t →
    ∃ c', t.life = .active c' ∧ c'.cursor = c.cursor)

/-- Rule R25: "Owned and mutated exclusively by refresh": while a controller lives, a step that issues no refresh
leaves the cursor as it was. -/
def Obligations.OnlyRefreshMovesCursor : Prop :=
  ∀ (s t : State) (c c' : Controller), s.life = .active c → step s = .next t → t.life = .active c' →
    (∀ i rest, decode s.rx = .command i rest → i.isRefresh = false) → c'.cursor = c.cursor

/-- Rule R133: from any cursor the masks of four refreshes are the rotation that starts at its own, and the fifth is
the first again. -/
def Obligations.MasksCycleWithPeriodFour : Prop :=
  (List.map digitMask [0#2, nextCursor 0#2, nextCursor (nextCursor 0#2), nextCursor (nextCursor (nextCursor 0#2))] =
    [0x08#8, 0x04#8, 0x02#8, 0x01#8]) ∧
  ∀ c : Slot,
    nextCursor (nextCursor (nextCursor (nextCursor c))) = c ∧ (nextCursor c).toNat = (c.toNat + 1) % 4 ∧
    [digitMask c, digitMask (nextCursor c), digitMask (nextCursor (nextCursor c)),
      digitMask (nextCursor (nextCursor (nextCursor c)))] =
      [0x08#8, 0x04#8, 0x02#8, 0x01#8].rotate c.toNat

/-- Rule R145: a successful refresh produces exactly this trace segment, and REFRESHD the one with the pause
inserted; the run has as many steps as the command has micro-steps. -/
def Obligations.SuccessfulRefreshTrace : Prop :=
  (∀ (s : State) (c : Controller) (rest : List Byte) (later : List EnvEvent),
    s.ReadyWith c → s.Issues .refresh rest →
    s.inbox = .answer .ok :: .answer .ok :: .answer .ok :: later →
    ∃ t, runSteps 4 s = .next t ∧ EndsRefresh s t c
      [.cmd .refresh, .call c.sh .strobeLow, .ans .ok,
        .call c.th (.transportWrite [readSlot c.bb c.cursor, digitMask c.cursor]), .ans .ok,
        .call c.sh .strobeHigh, .ans .ok, .resp .ok] .high later rest) ∧
  (∀ (s : State) (c : Controller) (d : Handle) (rest : List Byte) (later : List EnvEvent),
    s.ReadyWith c → s.Issues (.refreshd d) rest →
    s.inbox = .answer .ok :: .answer .ok :: .answer .ok :: .answer .ok :: later →
    ∃ t, runSteps 5 s = .next t ∧ EndsRefresh s t c
      [.cmd (.refreshd d), .call c.sh .strobeLow, .ans .ok,
        .call c.th (.transportWrite [readSlot c.bb c.cursor, digitMask c.cursor]), .ans .ok,
        .call d (.delay s.cfg.delayUs), .ans .ok,
        .call c.sh .strobeHigh, .ans .ok, .resp .ok] .high later rest)

/-- Rules R135, R138, R140, R141: a refresh of either kind whose step 1 fails ends with that error and calls nothing
more; whose step 2 fails, with no Delay and no StrobeHigh, the line known low; whose step 3 fails, with no
compensating call. The cursor has advanced in each. -/
def Obligations.FailedRefreshOutcomes : Prop :=
  ∀ (s : State) (c : Controller) (rest : List Byte) (later : List EnvEvent) (e : EP) (f : ET),
    s.ReadyWith c →
    (∀ i, i.isRefresh = true → s.Issues i rest → s.inbox = .answer (.pinErr e) :: later →
      ∃ t, runSteps 2 s = .next t ∧ EndsRefresh s t c
        [.cmd i, .call c.sh .strobeLow, .ans (.pinErr e), .resp (.pinError e)] .unknown later rest) ∧
    (∀ i, i.isRefresh = true → s.Issues i rest → s.inbox = .answer .ok :: .answer (.transportErr f) :: later →
      ∃ t, runSteps 3 s = .next t ∧ EndsRefresh s t c
        [.cmd i, .call c.sh .strobeLow, .ans .ok,
          .call c.th (.transportWrite [readSlot c.bb c.cursor, digitMask c.cursor]), .ans (.transportErr f),
          .resp (.transportError f)] .low later rest) ∧
    (s.Issues .refresh rest → s.inbox = .answer .ok :: .answer .ok :: .answer (.pinErr e) :: later →
      ∃ t, runSteps 4 s = .next t ∧ EndsRefresh s t c
        [.cmd .refresh, .call c.sh .strobeLow, .ans .ok,
          .call c.th (.transportWrite [readSlot c.bb c.cursor, digitMask c.cursor]), .ans .ok,
          .call c.sh .strobeHigh, .ans (.pinErr e), .resp (.pinError e)] .unknown later rest) ∧
    (∀ d, s.Issues (.refreshd d) rest →
      s.inbox = .answer .ok :: .answer .ok :: .answer .ok :: .answer (.pinErr e) :: later →
      ∃ t, runSteps 5 s = .next t ∧ EndsRefresh s t c
        [.cmd (.refreshd d), .call c.sh .strobeLow, .ans .ok,
          .call c.th (.transportWrite [readSlot c.bb c.cursor, digitMask c.cursor]), .ans .ok,
          .call d (.delay s.cfg.delayUs), .ans .ok,
          .call c.sh .strobeHigh, .ans (.pinErr e), .resp (.pinError e)] .unknown later rest)

/-- Rule R160: every error answer the block receives becomes the response of its command, with the same value, and
ends it. -/
def Obligations.NoErrorIsSwallowed : Prop :=
  ∀ (s t : State) (c : Controller) (later : List EnvEvent), step s = .next t →
    (∀ e : EP, s.Receives c (.pinErr e) later →
      t.phase = .idle ∧ t.trace = s.trace ++ [.ans (.pinErr e), .resp (.pinError e)] ∧
      (c.phase = .waitLow ∨ c.phase = .waitHigh)) ∧
    (∀ e : ET, s.Receives c (.transportErr e) later →
      t.phase = .idle ∧ t.trace = s.trace ++ [.ans (.transportErr e), .resp (.transportError e)] ∧
      c.phase = .waitWrite)

/-- Rules R33, R136, R132, R142: every call a step makes goes where it must: strobe calls to `SH`, a write to `TH`
with the two bytes `[PAT, MASK]` and a one-hot mask, a delay of DELAY_US to `DLY`; and a step makes at most one. -/
def Obligations.CallsGoToTheirOwners : Prop :=
  ∀ s t : State, s.Inv → step s = .next t →
    calls t.trace = calls s.trace ∨
    ∃ (c : Controller) (h : Handle) (k : Call), s.life = .active c ∧ calls t.trace = calls s.trace ++ [(h, k)] ∧
      ((k = .strobeLow ∧ h = c.sh) ∨ (k = .strobeHigh ∧ h = c.sh) ∨
        (k = .transportWrite [c.pat, c.mask] ∧ oneHotMask c.mask = true ∧ h = c.th) ∨
        (k = .delay s.cfg.delayUs ∧ c.dly = some h))

/-! ## Responses and faults -/

/-- Rule R151: a command that is not a refresh ends with exactly one response, OK, or with none if it faults; a
refresh's command step answers nothing, and an answer step answers exactly when it returns to Idle. Only a refresh
can answer an error. -/
def Obligations.OneResponsePerCommand : Prop :=
  (∀ (i : Instr) (s t : State), exec i s = .next t →
    responses t.trace = responses s.trace ∧ (t.fault ≠ none ∨ i.isRefresh = true) ∨
    t.fault = none ∧ i.isRefresh = false ∧
      ∃ r : Response, r.status = 0x00#8 ∧ responses t.trace = responses s.trace ++ [r]) ∧
  (∀ (s t : State) (c : Controller) (a : Answer) (later : List EnvEvent), s.Receives c a later → step s = .next t →
    (t.phase ≠ .idle ∧ responses t.trace = responses s.trace) ∨
    (t.phase = .idle ∧ ∃ r, responses t.trace = responses s.trace ++ [r]))

/-- Rule R155, with its codes and causes: "Nothing else faults." -/
def Obligations.OnlyListedFaults : Prop :=
  ∀ (i : Instr) (s t : State) (f : FaultMark), exec i s = .next t → t.fault = some f →
    (i.isReserved = true ∧ f = .illegalCommand i.opcode ∧ f.code = 0x10#8) ∨
    (∃ n, i = .encd n ∧ 10 ≤ n.toNat ∧ f = .digitRange n ∧ f.code = 0x11#8) ∨
    (f = .lifecycle i.opcode ∧ f.code = 0x12#8 ∧
      ((i.needsController = true ∧ s.NoController) ∨ ∃ t sh c, i = .construct t sh ∧ s.life = .active c)) ∨
    (s.phase ≠ .idle ∧ f = .reentered i.opcode ∧ f.code = 0x13#8)

/-- Rule R153: a model fault records F, produces no response and no call, leaves every other element as it was (the
command is an event of the trace, rule R49), and the block takes no further step: the Lean fault `stopped`
(notes/assumptions/6.md). -/
def Obligations.FaultChangesNothingElse : Prop :=
  ∀ (i : Instr) (s t : State) (f : FaultMark), exec i s = .next t → t.fault = some f →
    t = { s with fault := some f, trace := s.trace ++ [.cmd i] } ∧ step t = .fault (.stopped f)

/-- Rules R35, R152: the fault mark is none at power-up; once set it is never cleared, for no step and no command,
CONSTRUCT included, has a next state (the Lean fault `stopped`, notes/assumptions/6.md); and a marked state is not
final. -/
def Obligations.FaultIsSticky : Prop :=
  State.reset.fault = none ∧
  ∀ (s : State) (f : FaultMark), s.fault = some f →
    step s = .fault (.stopped f) ∧ (∀ i, exec i s = .fault (.stopped f)) ∧ s.final = false

/-- Rule R77: the bytes of each response; the payload of an error is the native value's, which is free
(notes/assumptions/5.md). -/
def Obligations.ResponseBytes : Prop :=
  Response.ok.bytes = [0x00#8] ∧
  (∀ p, (Response.okPattern p).bytes = [0x00#8, p]) ∧
  (∀ t s, (Response.okHandles t s).bytes = 0x00#8 :: (wordBytes t ++ wordBytes s)) ∧
  (∀ e, ∃ payload, (Response.pinError e).bytes = 0x01#8 :: payload) ∧
  (∀ e, ∃ payload, (Response.transportError e).bytes = 0x02#8 :: payload)

/-- Rule R173: between commands the block is idle and keeps all its state. That a step with no event left is a next
state, the same one, is the model's choice (notes/assumptions/7.md). -/
def Obligations.IdleBlockKeepsItsState : Prop :=
  ∀ s : State, s.Ready → decode s.rx = .incomplete → s.inbox = [] → step s = .next s

/-! ## The whole machine -/

/-- Rule R50: the trace only grows: no event is reordered, dropped or merged by a later step. -/
def Obligations.TraceOnlyGrows : Prop :=
  ∀ s t : State, step s = .next t → ∃ events, t.trace = s.trace ++ events

/-- Rules R36, R80: no step writes a table or a parameter. -/
def Obligations.ParametersAreConstant : Prop :=
  ∀ s t : State, step s = .next t → t.cfg = s.cfg

/-- Rules R177, R82: the invariant holds at power-up for every choice of the parameters that meets rule R82's
constraint; and so at `State.reset`, which is the model's power-up state (DEDUCED, notes/assumptions/1.md) with the
parameters at the spec's defaults (DESIGN CHOICE, notes/assumptions/3.md). -/
def Obligations.InvariantAtPowerUp : Prop :=
  (∀ cfg : Config, cfg.wf = true → ({ State.reset with cfg := cfg } : State).Inv) ∧ State.reset.Inv

/-- Rules R18, R21, R29, R30, R49, R82, R140: every step keeps the invariant: the back buffer stays in canonical
form, the mask one-hot, the strobe level and the delay source consistent with the phase, the last event the pending
call while a refresh waits, the letter table's constraint. -/
def Obligations.EveryStepKeepsInvariant : Prop :=
  ∀ s t : State, s.Inv → step s = .next t → t.Inv

/-! ## The wire and the display -/

/-- Rules R47, R66: the 16 bits of a refresh in the order they leave; and, in the optional observation of D22, whose
16-stage chain is a premise about the platform (notes/assumptions/13.md), that they fill the chain with `{PAT, MASK}`
whatever it held. -/
def Obligations.WireOrderFillsChain : Prop :=
  ∀ pat mask : Byte,
    wireBits [pat, mask] =
      [pat.getLsbD 7, pat.getLsbD 6, pat.getLsbD 5, pat.getLsbD 4, pat.getLsbD 3, pat.getLsbD 2, pat.getLsbD 1,
        pat.getLsbD 0, mask.getLsbD 7, mask.getLsbD 6, mask.getLsbD 5, mask.getLsbD 4, mask.getLsbD 3,
        mask.getLsbD 2, mask.getLsbD 1, mask.getLsbD 0] ∧
    (frameWord pat mask).extractLsb' 8 8 = pat ∧ (frameWord pat mask).extractLsb' 0 8 = mask ∧
    ∀ chain : BitVec 16, shiftAll chain (wireBits [pat, mask]) = frameWord pat mask

/-- The observation D22 with rule R140: after a successful refresh segment the outputs hold the frame, with the pause
on every platform and without it on one whose latch needs none (on another they are unknown: ID14); after a failure or
a hang of step 1, and during a hang of step 2 or of the pause, they hold what they held; after a failure of step 2
(notes/assumptions/12.md) or of step 3 they are unknown, as they are while StrobeHigh hangs, with or without the pause
before it. After a RELEASE of the strobe output they are unknown, which is the model's
choice (notes/assumptions/18.md). The observation's premises are those of notes/assumptions/13.md. -/
def Obligations.DisplayAfterRefresh : Prop :=
  ∀ (tr : List Event) (p : Platform) (pat mask : Byte) (e : EP) (f : ET) (i : Instr) (d t : Handle) (us : Nat),
    (observe p tr).pending = none →
    let after (events : List Event) : Option (BitVec 16) := (observe p (List.append tr events)).shown
    after [.cmd i, .call p.sh .strobeLow, .ans .ok, .call p.th (.transportWrite [pat, mask]), .ans .ok,
      .call p.sh .strobeHigh, .ans .ok, .resp .ok] = (if p.settles then some (frameWord pat mask) else none) ∧
    after [.cmd i, .call p.sh .strobeLow, .ans .ok, .call p.th (.transportWrite [pat, mask]), .ans .ok,
      .call d (.delay us), .ans .ok, .call p.sh .strobeHigh, .ans .ok, .resp .ok] = some (frameWord pat mask) ∧
    after [.cmd i, .call p.sh .strobeLow] = (observe p tr).shown ∧
    after [.cmd i, .call p.sh .strobeLow, .ans .ok, .call p.th (.transportWrite [pat, mask])] =
      (observe p tr).shown ∧
    after [.cmd i, .call p.sh .strobeLow, .ans (.pinErr e), .resp (.pinError e)] = (observe p tr).shown ∧
    after [.cmd i, .call p.sh .strobeLow, .ans .ok, .call p.th (.transportWrite [pat, mask]),
      .ans (.transportErr f), .resp (.transportError f)] = none ∧
    after [.cmd i, .call p.sh .strobeLow, .ans .ok, .call p.th (.transportWrite [pat, mask]), .ans .ok,
      .call p.sh .strobeHigh] = none ∧
    after [.cmd i, .call p.sh .strobeLow, .ans .ok, .call p.th (.transportWrite [pat, mask]), .ans .ok,
      .call p.sh .strobeHigh, .ans (.pinErr e), .resp (.pinError e)] = none ∧
    after [.cmd i, .call p.sh .strobeLow, .ans .ok, .call p.th (.transportWrite [pat, mask]), .ans .ok,
      .call d (.delay us)] = (observe p tr).shown ∧
    after [.cmd i, .call p.sh .strobeLow, .ans .ok, .call p.th (.transportWrite [pat, mask]), .ans .ok,
      .call d (.delay us), .ans .ok, .call p.sh .strobeHigh] = none ∧
    after [.cmd i, .call p.sh .strobeLow, .ans .ok, .call p.th (.transportWrite [pat, mask]), .ans .ok,
      .call d (.delay us), .ans .ok, .call p.sh .strobeHigh, .ans (.pinErr e), .resp (.pinError e)] = none ∧
    after [.cmd .release, .resp (.okHandles t p.sh)] = none

/-- Rules R132, R183: if every payload of a trace has the mask of one digit (CallsGoToTheirOwners says it of the block's
steps), the display never shows two digits: what the outputs are known to hold selects exactly one. The display is the
optional observation of notes/assumptions/12.md, 13.md and 18.md. -/
def Obligations.AtMostOneDigitShown : Prop :=
  ∀ (tr : List Event) (p : Platform),
    (∀ bs ∈ payloads p.th tr, ∃ (pat : Byte) (j : Slot), bs = [pat, digitMask j]) →
    ∀ f, (observe p tr).shown = some f → ∃ (pat : Byte) (j : Slot), f = frameWord pat (digitMask j) ∧
      ∀ (j' : Slot) (p' : Byte), (observe p tr).digitShows j' p' ↔ j' = j ∧ p' = pat

/-- Rule R79: the pseudo-commands' expansions, and that CLEAR's frame blanks every slot of a ready controller. -/
def Obligations.PseudoCommandsExpand : Prop :=
  Pseudo.clear.expand.flatMap encode = [0x06#8, 0x00#8, 0x00#8, 0x00#8, 0x00#8] ∧
  Pseudo.scan.expand.flatMap encode = [0x08#8, 0x08#8, 0x08#8, 0x08#8] ∧
  ∀ (s : State) (c : Controller), s.ReadyWith c →
    ∀ i ∈ Pseudo.clear.expand, ∃ (t : State) (c' : Controller), exec i s = .next t ∧ t.life = .active c' ∧
      ∀ j : Slot, readSlot c'.bb j = 0xFF#8
end

