-- ==== Sys2Proof/Laws/Decode.lean ====
section
/-! SUPPORT. The byte order of operand words, both ways: what the encoder sends is what the decoder reads. -/

namespace Sys2Proof

/-- Big-endian, read back (spec/30_encoding.md rule R71). -/
theorem wordOfBytes_extract (w : Word) :
    wordOfBytes (w.extractLsb' 24 8) (w.extractLsb' 16 8) (w.extractLsb' 8 8) (w.extractLsb' 0 8) = w := by
  apply BitVec.eq_of_toNat_eq
  have := w.isLt
  simp only [wordOfBytes, BitVec.toNat_append, BitVec.extractLsb'_toNat, Nat.shiftRight_eq_div_pow]
  rw [← Nat.shiftLeft_add_eq_or_of_lt (by omega), ← Nat.shiftLeft_add_eq_or_of_lt (by omega),
    ← Nat.shiftLeft_add_eq_or_of_lt (by omega)]
  simp only [Nat.shiftLeft_eq]
  omega

theorem wordBytes_wordOfBytes (b3 b2 b1 b0 : Byte) : wordBytes (wordOfBytes b3 b2 b1 b0) = [b3, b2, b1, b0] := by
  have h3 := b3.isLt
  have h2 := b2.isLt
  have h1 := b1.isLt
  have h0 := b0.isLt
  have hw : (wordOfBytes b3 b2 b1 b0).toNat = ((b3.toNat * 256 + b2.toNat) * 256 + b1.toNat) * 256 + b0.toNat := by
    simp only [wordOfBytes, BitVec.toNat_append]
    rw [← Nat.shiftLeft_add_eq_or_of_lt h0, ← Nat.shiftLeft_add_eq_or_of_lt h1,
      ← Nat.shiftLeft_add_eq_or_of_lt h2]
    simp only [Nat.shiftLeft_eq]
  simp only [wordBytes, List.cons.injEq, and_true]
  refine ⟨?_, ?_, ?_, ?_⟩ <;> apply BitVec.eq_of_toNat_eq <;>
    simp only [BitVec.extractLsb'_toNat, Nat.shiftRight_eq_div_pow, hw] <;> omega

@[simp] theorem wordBytes_length (w : Word) : (wordBytes w).length = 4 := rfl

@[simp] theorem readWord_append (w : Word) (rest : List Byte) : readWord (wordBytes w ++ rest) = some (w, rest) := by
  simp [wordBytes, readWord, wordOfBytes_extract]

theorem readWord_some {bs rest : List Byte} {w : Word} (h : readWord bs = some (w, rest)) :
    bs = wordBytes w ++ rest := by
  match bs, h with
  | b3 :: b2 :: b1 :: b0 :: bs, h =>
    simp only [readWord, Option.some.injEq, Prod.mk.injEq] at h
    obtain ⟨rfl, rfl⟩ := h
    simp [wordBytes_wordOfBytes]

theorem readWord_none {bs : List Byte} : readWord bs = none ↔ bs.length < 4 := by
  match bs with
  | [] => simp [readWord]
  | [_] => simp [readWord]
  | [_, _] => simp [readWord]
  | [_, _, _] => simp [readWord]
  | _ :: _ :: _ :: _ :: bs => simp [readWord]

@[simp] theorem flatMap_wordBytes_length (ws : List Word) : (ws.flatMap wordBytes).length = 4 * ws.length := by
  induction ws with
  | nil => rfl
  | cons w ws ih => simp [ih]; omega

theorem readWords_append (ws : List Word) (rest : List Byte) :
    readWords ws.length (ws.flatMap wordBytes ++ rest) = some (ws, rest) := by
  induction ws with
  | nil => rfl
  | cons w ws ih => simp [readWords, ih]

theorem readWords_some {n : Nat} {bs rest : List Byte} {ws : List Word} (h : readWords n bs = some (ws, rest)) :
    ws.length = n ∧ bs = ws.flatMap wordBytes ++ rest := by
  induction n generalizing bs ws with
  | zero =>
    simp only [readWords, Option.some.injEq, Prod.mk.injEq] at h
    obtain ⟨rfl, rfl⟩ := h
    simp
  | succ n ih =>
    simp only [readWords] at h
    split at h
    · cases h
    · next w r hw =>
      split at h
      · cases h
      · next ws' r' hr =>
        cases h
        obtain ⟨hl, hb⟩ := ih hr
        simp [hl, readWord_some hw, hb]

theorem readWords_none {n : Nat} {bs : List Byte} : readWords n bs = none ↔ bs.length < 4 * n := by
  induction n generalizing bs with
  | zero => simp [readWords]
  | succ n ih =>
    cases hw : readWord bs with
    | none =>
      have := readWord_none.mp hw
      simp [readWords, hw]
      omega
    | some p =>
      obtain ⟨w, r⟩ := p
      have hb := congrArg List.length (readWord_some hw)
      simp only [List.length_append, wordBytes_length] at hb
      cases hr : readWords n r with
      | none =>
        have := ih.mp hr
        simp [readWords, hw, hr]
        omega
      | some q =>
        have : ¬ r.length < 4 * n := fun h => by simp [ih.mpr h] at hr
        simp [readWords, hw, hr]
        omega

end Sys2Proof
end

