-- ==== Sys2Proof/Laws/Memory.lean ====
section
/-! SUPPORT. The laws of the back-buffer space: read after write, and that every operation keeps the canonical
form. -/

namespace Sys2Proof.Machine

@[simp] theorem readAt_cleared (a : Nat) : readAt clearedMemory a = blank := rfl

@[simp] theorem readSlot_cleared (i : Slot) : readSlot clearedMemory i = blank := rfl

theorem readAt_dropCell_same (m : Memory) (a : Nat) : readAt (dropCell m a) a = blank := by
  induction m with
  | nil => rfl
  | cons c m ih =>
    by_cases h : c.1 = a
    · simpa [dropCell, h] using ih
    · simpa [dropCell, h, readAt] using ih

theorem readAt_dropCell_ne (m : Memory) {a a' : Nat} (h : a' ≠ a) : readAt (dropCell m a) a' = readAt m a' := by
  induction m with
  | nil => rfl
  | cons c m ih =>
    by_cases hc : c.1 = a
    · have : c.1 ≠ a' := by omega
      simpa [dropCell, hc, readAt, h.symm] using ih
    · by_cases hc' : c.1 = a'
      · simp [dropCell, readAt, hc', h]
      · simpa [dropCell, hc, hc', readAt] using ih

theorem readAt_insertCell_same (m : Memory) (a : Nat) (b : Byte) (h : ∀ c ∈ m, c.1 ≠ a) :
    readAt (insertCell a b m) a = b := by
  induction m with
  | nil => simp [insertCell, readAt]
  | cons c m ih =>
    have hc : c.1 ≠ a := h c (by simp)
    by_cases hlt : a < c.1
    · simp [insertCell, hlt, readAt]
    · simpa [insertCell, hlt, readAt, hc] using ih fun d hd => h d (by simp [hd])

theorem readAt_insertCell_ne (m : Memory) {a a' : Nat} (b : Byte) (h : a' ≠ a) :
    readAt (insertCell a b m) a' = readAt m a' := by
  induction m with
  | nil => simp [insertCell, readAt, h.symm]
  | cons c m ih =>
    by_cases hlt : a < c.1
    · simp [insertCell, hlt, readAt, h.symm]
    · by_cases hc : c.1 = a'
      · have hlt' : ¬ a < a' := hc ▸ hlt
        simp [insertCell, hlt', readAt, hc]
      · simpa [insertCell, hlt, readAt, hc] using ih

theorem mem_dropCell_ne {m : Memory} {a : Nat} {c : Host.Cell} (h : c ∈ dropCell m a) : c.1 ≠ a := by
  simpa using (List.mem_filter.mp h).2

/-- A read of the index written gives the byte written. -/
theorem readAt_writeAt_same (m : Memory) (a : Nat) (b : Byte) : readAt (writeAt m a b) a = b := by
  unfold writeAt
  split
  · next h => rw [readAt_dropCell_same, h]
  · exact readAt_insertCell_same _ _ _ fun _ => mem_dropCell_ne

/-- A write leaves every other index as it was. -/
theorem readAt_writeAt_ne (m : Memory) {a a' : Nat} (b : Byte) (h : a' ≠ a) :
    readAt (writeAt m a b) a' = readAt m a' := by
  unfold writeAt
  split
  · exact readAt_dropCell_ne m h
  · rw [readAt_insertCell_ne _ _ h, readAt_dropCell_ne m h]

@[simp] theorem readSlot_writeSlot_same (m : Memory) (i : Slot) (v : Byte) :
    readSlot (writeSlot m i v) i = v :=
  readAt_writeAt_same ..

theorem readSlot_writeSlot_ne (m : Memory) {i j : Slot} (v : Byte) (h : j ≠ i) :
    readSlot (writeSlot m i v) j = readSlot m j :=
  readAt_writeAt_ne m v fun e => h (BitVec.eq_of_toNat_eq e)

theorem wfFrom_weaken {lo lo' : Nat} (h : lo' ≤ lo) {m : Memory} (hm : wfFrom lo m = true) :
    wfFrom lo' m = true := by
  cases m with
  | nil => rfl
  | cons c m =>
    obtain ⟨a, b⟩ := c
    simp only [wfFrom, Bool.and_eq_true, decide_eq_true_eq] at hm ⊢
    exact ⟨⟨⟨by omega, hm.1.1.2⟩, hm.1.2⟩, hm.2⟩

theorem dropCell_wfFrom {m : Memory} {lo : Nat} (a : Nat) (hm : wfFrom lo m = true) :
    wfFrom lo (dropCell m a) = true := by
  induction m generalizing lo with
  | nil => rfl
  | cons c m ih =>
    obtain ⟨x, y⟩ := c
    simp only [wfFrom, Bool.and_eq_true, decide_eq_true_eq] at hm
    have htail := ih hm.2
    by_cases h : x = a
    · have : dropCell ((x, y) :: m) a = dropCell m a := by simp [dropCell, h]
      rw [this]
      exact wfFrom_weaken (by omega) htail
    · have : dropCell ((x, y) :: m) a = (x, y) :: dropCell m a := by simp [dropCell, h]
      rw [this]
      simp only [wfFrom, Bool.and_eq_true, decide_eq_true_eq]
      exact ⟨hm.1, htail⟩

theorem insertCell_wfFrom {m : Memory} {lo a : Nat} {b : Byte} (hlo : lo ≤ a) (ha : a < 4) (hb : b ≠ blank)
    (hne : ∀ c ∈ m, c.1 ≠ a) (hm : wfFrom lo m = true) : wfFrom lo (insertCell a b m) = true := by
  induction m generalizing lo with
  | nil => simp [insertCell, wfFrom, hlo, ha, hb]
  | cons c m ih =>
    obtain ⟨x, y⟩ := c
    have hx : x ≠ a := hne (x, y) (by simp)
    simp only [wfFrom, Bool.and_eq_true, decide_eq_true_eq] at hm
    by_cases hlt : a < x
    · simp only [insertCell, hlt, if_true, wfFrom, Bool.and_eq_true, decide_eq_true_eq]
      exact ⟨⟨⟨hlo, ha⟩, hb⟩, ⟨⟨⟨by omega, hm.1.1.2⟩, hm.1.2⟩, hm.2⟩⟩
    · simp only [insertCell, hlt, if_false, wfFrom, Bool.and_eq_true, decide_eq_true_eq]
      exact ⟨hm.1, ih (by omega) (fun d hd => hne d (by simp [hd])) hm.2⟩

/-- A write to an index below 4 keeps the canonical form. -/
theorem writeAt_wf {m : Memory} {a : Nat} (b : Byte) (ha : a < 4) (hm : m.wf = true) :
    (writeAt m a b).wf = true := by
  unfold writeAt
  split
  · exact dropCell_wfFrom a hm
  · next hb => exact insertCell_wfFrom (by omega) ha hb (fun _ => mem_dropCell_ne) (dropCell_wfFrom a hm)

theorem writeSlot_wf {m : Memory} (i : Slot) (v : Byte) (hm : m.wf = true) : (writeSlot m i v).wf = true :=
  writeAt_wf v i.isLt hm

theorem writeSlots_wf {m : Memory} (i : Slot) (ps : List Byte) (hm : m.wf = true) :
    (writeSlots m i ps).wf = true := by
  induction ps generalizing m i with
  | nil => exact hm
  | cons p ps ih => exact ih _ (writeSlot_wf i p hm)

theorem clearedMemory_wf : clearedMemory.wf = true := rfl

/-- A canonical memory lists nothing below the bound it starts from. -/
theorem readAt_wfFrom_lt {m : Memory} {lo a : Nat} (hm : wfFrom lo m = true) (h : a < lo) : readAt m a = blank := by
  induction m generalizing lo with
  | nil => rfl
  | cons c m ih =>
    obtain ⟨x, y⟩ := c
    simp only [wfFrom, Bool.and_eq_true, decide_eq_true_eq] at hm
    have : x ≠ a := by omega
    simpa [readAt, this] using ih hm.2 (by omega)

/-- A canonical memory lists no index from 4 up. -/
theorem readAt_wf_ge {m : Memory} {lo a : Nat} (hm : wfFrom lo m = true) (h : 4 ≤ a) : readAt m a = blank := by
  induction m generalizing lo with
  | nil => rfl
  | cons c m ih =>
    obtain ⟨x, y⟩ := c
    simp only [wfFrom, Bool.and_eq_true, decide_eq_true_eq] at hm
    have : x ≠ a := by omega
    simpa [readAt, this] using ih hm.2

/-- The four slots. -/
theorem slot_cases (i : Slot) : i = 0#2 ∨ i = 1#2 ∨ i = 2#2 ∨ i = 3#2 := by
  revert i
  decide

/-- Patterns written from slot 0: each slot holds its pattern of the list, and the slots beyond the list are as they
were. -/
theorem readSlot_writeSlots (m : Memory) (ps : List Byte) (h : ps.length ≤ 4) (i : Slot) :
    readSlot (writeSlots m 0#2 ps) i = ps.getD i.toNat (readSlot m i) := by
  match ps, h with
  | [], _ => rfl
  | [p0], _ => rcases slot_cases i with rfl | rfl | rfl | rfl <;> simp [writeSlots, readSlot_writeSlot_ne]
  | [p0, p1], _ => rcases slot_cases i with rfl | rfl | rfl | rfl <;> simp [writeSlots, readSlot_writeSlot_ne]
  | [p0, p1, p2], _ =>
    rcases slot_cases i with rfl | rfl | rfl | rfl <;> simp [writeSlots, readSlot_writeSlot_ne]
  | [p0, p1, p2, p3], _ =>
    rcases slot_cases i with rfl | rfl | rfl | rfl <;> simp [writeSlots, readSlot_writeSlot_ne]
  | _ :: _ :: _ :: _ :: _ :: _, h => exact absurd h (by simp)

/-- A list of four patterns written from slot 0 fills the slots in order, whatever was there. -/
theorem readSlot_writeSlots_four (m : Memory) (p0 p1 p2 p3 : Byte) :
    readSlot (writeSlots m 0#2 [p0, p1, p2, p3]) 0#2 = p0 ∧ readSlot (writeSlots m 0#2 [p0, p1, p2, p3]) 1#2 = p1 ∧
    readSlot (writeSlots m 0#2 [p0, p1, p2, p3]) 2#2 = p2 ∧
    readSlot (writeSlots m 0#2 [p0, p1, p2, p3]) 3#2 = p3 := by
  simp [writeSlots, readSlot_writeSlot_ne]

end Sys2Proof.Machine
end

