-- ==== Sys2Proof/Laws/State.lean ====
section
/-! SUPPORT. What each update of the state leaves in each field, so that no later proof unfolds an update. -/

namespace Sys2Proof.Machine

@[simp] theorem log_life (s : State) (e : Event) : (s.log e).life = s.life := rfl
@[simp] theorem log_fault (s : State) (e : Event) : (s.log e).fault = s.fault := rfl
@[simp] theorem log_trace (s : State) (e : Event) : (s.log e).trace = s.trace ++ [e] := rfl
@[simp] theorem log_rx (s : State) (e : Event) : (s.log e).rx = s.rx := rfl
@[simp] theorem log_inbox (s : State) (e : Event) : (s.log e).inbox = s.inbox := rfl
@[simp] theorem log_draws (s : State) (e : Event) : (s.log e).draws = s.draws := rfl
@[simp] theorem log_cfg (s : State) (e : Event) : (s.log e).cfg = s.cfg := rfl
@[simp] theorem log_phase (s : State) (e : Event) : (s.log e).phase = s.phase := rfl

@[simp] theorem respond_life (s : State) (r : Response) : (s.respond r).life = s.life := rfl
@[simp] theorem respond_fault (s : State) (r : Response) : (s.respond r).fault = s.fault := rfl
@[simp] theorem respond_trace (s : State) (r : Response) : (s.respond r).trace = s.trace ++ [.resp r] := rfl
@[simp] theorem respond_rx (s : State) (r : Response) : (s.respond r).rx = s.rx := rfl
@[simp] theorem respond_inbox (s : State) (r : Response) : (s.respond r).inbox = s.inbox := rfl
@[simp] theorem respond_draws (s : State) (r : Response) : (s.respond r).draws = s.draws := rfl
@[simp] theorem respond_cfg (s : State) (r : Response) : (s.respond r).cfg = s.cfg := rfl

@[simp] theorem raise_life (s : State) (f : FaultMark) : (s.raise f).life = s.life := rfl
@[simp] theorem raise_fault (s : State) (f : FaultMark) : (s.raise f).fault = some f := rfl
@[simp] theorem raise_trace (s : State) (f : FaultMark) : (s.raise f).trace = s.trace := rfl
@[simp] theorem raise_rx (s : State) (f : FaultMark) : (s.raise f).rx = s.rx := rfl
@[simp] theorem raise_inbox (s : State) (f : FaultMark) : (s.raise f).inbox = s.inbox := rfl
@[simp] theorem raise_draws (s : State) (f : FaultMark) : (s.raise f).draws = s.draws := rfl
@[simp] theorem raise_cfg (s : State) (f : FaultMark) : (s.raise f).cfg = s.cfg := rfl

@[simp] theorem setController_life (s : State) (c : Controller) : (s.setController c).life = .active c := rfl
@[simp] theorem setController_fault (s : State) (c : Controller) : (s.setController c).fault = s.fault := rfl
@[simp] theorem setController_trace (s : State) (c : Controller) : (s.setController c).trace = s.trace := rfl
@[simp] theorem setController_rx (s : State) (c : Controller) : (s.setController c).rx = s.rx := rfl
@[simp] theorem setController_inbox (s : State) (c : Controller) : (s.setController c).inbox = s.inbox := rfl
@[simp] theorem setController_draws (s : State) (c : Controller) : (s.setController c).draws = s.draws := rfl
@[simp] theorem setController_cfg (s : State) (c : Controller) : (s.setController c).cfg = s.cfg := rfl

@[simp] theorem setIdleController_life (s : State) (c : Controller) :
    (s.setIdleController c).life = .active (c.unspecifyPayload s.draws) := rfl
@[simp] theorem setIdleController_fault (s : State) (c : Controller) :
    (s.setIdleController c).fault = s.fault := rfl
@[simp] theorem setIdleController_trace (s : State) (c : Controller) :
    (s.setIdleController c).trace = s.trace := rfl
@[simp] theorem setIdleController_rx (s : State) (c : Controller) : (s.setIdleController c).rx = s.rx := rfl
@[simp] theorem setIdleController_inbox (s : State) (c : Controller) :
    (s.setIdleController c).inbox = s.inbox := rfl
@[simp] theorem setIdleController_draws (s : State) (c : Controller) :
    (s.setIdleController c).draws = s.draws + 1 := rfl
@[simp] theorem setIdleController_cfg (s : State) (c : Controller) : (s.setIdleController c).cfg = s.cfg := rfl

@[simp] theorem unspecifyPayload_th (c : Controller) (n : Nat) : (c.unspecifyPayload n).th = c.th := rfl
@[simp] theorem unspecifyPayload_sh (c : Controller) (n : Nat) : (c.unspecifyPayload n).sh = c.sh := rfl
@[simp] theorem unspecifyPayload_bb (c : Controller) (n : Nat) : (c.unspecifyPayload n).bb = c.bb := rfl
@[simp] theorem unspecifyPayload_cursor (c : Controller) (n : Nat) :
    (c.unspecifyPayload n).cursor = c.cursor := rfl
@[simp] theorem unspecifyPayload_phase (c : Controller) (n : Nat) : (c.unspecifyPayload n).phase = c.phase := rfl
@[simp] theorem unspecifyPayload_strobe (c : Controller) (n : Nat) :
    (c.unspecifyPayload n).strobe = c.strobe := rfl
@[simp] theorem unspecifyPayload_mask (c : Controller) (n : Nat) :
    (c.unspecifyPayload n).mask = digitMask (Config.freeSlot n) := rfl

@[simp] theorem capture_th (c : Controller) (d : Option Handle) : (c.capture d).th = c.th := rfl
@[simp] theorem capture_sh (c : Controller) (d : Option Handle) : (c.capture d).sh = c.sh := rfl
@[simp] theorem capture_bb (c : Controller) (d : Option Handle) : (c.capture d).bb = c.bb := rfl
@[simp] theorem capture_cursor (c : Controller) (d : Option Handle) :
    (c.capture d).cursor = nextCursor c.cursor := rfl
@[simp] theorem capture_phase (c : Controller) (d : Option Handle) : (c.capture d).phase = .waitLow := rfl
@[simp] theorem capture_pat (c : Controller) (d : Option Handle) :
    (c.capture d).pat = readSlot c.bb c.cursor := rfl
@[simp] theorem capture_mask (c : Controller) (d : Option Handle) : (c.capture d).mask = digitMask c.cursor := rfl
@[simp] theorem capture_dly (c : Controller) (d : Option Handle) : (c.capture d).dly = d := rfl
@[simp] theorem capture_strobe (c : Controller) (d : Option Handle) : (c.capture d).strobe = .unknown := rfl

@[simp] theorem beginRefresh_life (s : State) (c : Controller) (d : Option Handle) :
    (s.beginRefresh c d).life = .active (c.capture d) := rfl
@[simp] theorem beginRefresh_fault (s : State) (c : Controller) (d : Option Handle) :
    (s.beginRefresh c d).fault = s.fault := rfl
@[simp] theorem beginRefresh_trace (s : State) (c : Controller) (d : Option Handle) :
    (s.beginRefresh c d).trace = s.trace ++ [.call c.sh .strobeLow] := rfl
@[simp] theorem beginRefresh_cfg (s : State) (c : Controller) (d : Option Handle) :
    (s.beginRefresh c d).cfg = s.cfg := rfl

@[simp] theorem shiftPayload_life (s : State) (c : Controller) :
    (s.shiftPayload c).life = .active { c with strobe := .low, phase := .waitWrite } := rfl
@[simp] theorem shiftPayload_fault (s : State) (c : Controller) : (s.shiftPayload c).fault = s.fault := rfl
@[simp] theorem shiftPayload_trace (s : State) (c : Controller) :
    (s.shiftPayload c).trace = s.trace ++ [.call c.th (.transportWrite [c.pat, c.mask])] := rfl
@[simp] theorem shiftPayload_cfg (s : State) (c : Controller) : (s.shiftPayload c).cfg = s.cfg := rfl

@[simp] theorem raiseStrobe_life (s : State) (c : Controller) :
    (s.raiseStrobe c).life = .active { c with strobe := .unknown, phase := .waitHigh } := rfl
@[simp] theorem raiseStrobe_fault (s : State) (c : Controller) : (s.raiseStrobe c).fault = s.fault := rfl
@[simp] theorem raiseStrobe_trace (s : State) (c : Controller) :
    (s.raiseStrobe c).trace = s.trace ++ [.call c.sh .strobeHigh] := rfl
@[simp] theorem raiseStrobe_cfg (s : State) (c : Controller) : (s.raiseStrobe c).cfg = s.cfg := rfl

@[simp] theorem endRefresh_life (s : State) (c : Controller) (g : Strobe) (r : Response) :
    (s.endRefresh c g r).life =
      .active (Controller.unspecifyPayload { c with strobe := g, phase := .idle } s.draws) := rfl
@[simp] theorem endRefresh_fault (s : State) (c : Controller) (g : Strobe) (r : Response) :
    (s.endRefresh c g r).fault = s.fault := rfl
@[simp] theorem endRefresh_trace (s : State) (c : Controller) (g : Strobe) (r : Response) :
    (s.endRefresh c g r).trace = s.trace ++ [.resp r] := rfl
@[simp] theorem endRefresh_cfg (s : State) (c : Controller) (g : Strobe) (r : Response) :
    (s.endRefresh c g r).cfg = s.cfg := rfl

@[simp] theorem writeBuffer_life (s : State) (c : Controller) (m : Memory) :
    (s.writeBuffer c m).life = .active { c with bb := m } := rfl
@[simp] theorem writeBuffer_fault (s : State) (c : Controller) (m : Memory) :
    (s.writeBuffer c m).fault = s.fault := rfl
@[simp] theorem writeBuffer_trace (s : State) (c : Controller) (m : Memory) :
    (s.writeBuffer c m).trace = s.trace ++ [.resp .ok] := rfl
@[simp] theorem writeBuffer_cfg (s : State) (c : Controller) (m : Memory) : (s.writeBuffer c m).cfg = s.cfg := rfl

/-- The reset state has no controller, so its back buffer lists nothing and its phase is Idle. -/
@[simp] theorem reset_phase : State.reset.phase = .idle := rfl

end Sys2Proof.Machine
end

