-- ==== Sys2Proof/Laws/Ops.lean ====
section
/-! SUPPORT. What each shared operation of the commands can do, said once. -/

namespace Sys2Proof.Machine

theorem issue_unfaulted {s : State} (h : s.fault = none) (i : Instr) (body : State → Result) :
    issue i s body = body (s.log (.cmd i)) := by
  simp [issue, h]

theorem issue_faulted {s : State} {f : FaultMark} (h : s.fault = some f) (i : Instr) (body : State → Result) :
    issue i s body = .fault (.stopped f) := by
  simp [issue, h]

theorem issue_next {s t : State} {i : Instr} {body : State → Result} (h : issue i s body = .next t) :
    s.fault = none ∧ body (s.log (.cmd i)) = .next t := by
  unfold issue at h
  split at h
  · cases h
  · exact ⟨‹_›, h⟩

theorem whenIdle_next {s t : State} {i : Instr} {body : State → Result} (h : whenIdle i s body = .next t) :
    (s.phase = .idle ∧ body s = .next t) ∨ (s.phase ≠ .idle ∧ t = s.raise (.reentered i.opcode)) := by
  unfold whenIdle at h
  split at h
  · exact .inl ⟨‹_›, h⟩
  · cases h
    exact .inr ⟨‹_›, rfl⟩

/-- An encoder command that passes its check. -/
theorem encoderCommand_ready {s : State} (h : s.Ready) (i : Instr) (body : State → Result) :
    encoderCommand i s body = body (s.log (.cmd i)) := by
  simp [encoderCommand, issue, whenIdle, h.1, h.2]

/-- A controller command that passes its checks. -/
theorem controllerCommand_ready {s : State} {c : Controller} (h : s.ReadyWith c) (i : Instr)
    (body : Controller → State → Result) : controllerCommand i s body = body c (s.log (.cmd i)) := by
  obtain ⟨hf, hl, hp⟩ := h
  simp [controllerCommand, issue, whenIdle, hf, hl, hp, State.phase, Life.phase]

/-- CONSTRUCT without a controller. -/
theorem constructCommand_ready {s : State} (hf : s.fault = none) (hl : s.NoController) (i : Instr)
    (body : State → Result) : constructCommand i s body = body (s.log (.cmd i)) := by
  rcases hl with hl | hl <;> simp [constructCommand, issue, whenIdle, hf, hl, State.phase, Life.phase]

/-- Everything a controller command can do. -/
theorem controllerCommand_next {s t : State} {i : Instr} {body : Controller → State → Result}
    (h : controllerCommand i s body = .next t) :
    s.fault = none ∧
      ((∃ c, s.life = .active c ∧ c.phase = .idle ∧ body c (s.log (.cmd i)) = .next t) ∨
        (s.phase ≠ .idle ∧ t = (s.log (.cmd i)).raise (.reentered i.opcode)) ∨
        (s.NoController ∧ t = (s.log (.cmd i)).raise (.lifecycle i.opcode))) := by
  obtain ⟨hf, hb⟩ := issue_next h
  refine ⟨hf, ?_⟩
  rcases whenIdle_next hb with ⟨hp, hb⟩ | ⟨hp, rfl⟩
  · cases hl : s.life with
    | active c =>
      simp only [log_life, hl] at hb
      exact .inl ⟨c, rfl, by simpa [State.phase, Life.phase, hl] using hp, hb⟩
    | unconstructed =>
      simp only [log_life, hl, Host.Outcome.next.injEq] at hb
      exact .inr (.inr ⟨.inl hl, hb.symm⟩)
    | released =>
      simp only [log_life, hl, Host.Outcome.next.injEq] at hb
      exact .inr (.inr ⟨.inr hl, hb.symm⟩)
  · exact .inr (.inl ⟨hp, rfl⟩)

/-- Everything an encoder command can do. -/
theorem encoderCommand_next {s t : State} {i : Instr} {body : State → Result}
    (h : encoderCommand i s body = .next t) :
    s.fault = none ∧
      ((s.phase = .idle ∧ body (s.log (.cmd i)) = .next t) ∨
        (s.phase ≠ .idle ∧ t = (s.log (.cmd i)).raise (.reentered i.opcode))) := by
  obtain ⟨hf, hb⟩ := issue_next h
  exact ⟨hf, whenIdle_next hb⟩

/-- Everything CONSTRUCT's checks can do. -/
theorem constructCommand_next {s t : State} {i : Instr} {body : State → Result}
    (h : constructCommand i s body = .next t) :
    s.fault = none ∧
      ((s.NoController ∧ body (s.log (.cmd i)) = .next t) ∨
        (s.phase ≠ .idle ∧ t = (s.log (.cmd i)).raise (.reentered i.opcode)) ∨
        (∃ c, s.life = .active c ∧ c.phase = .idle ∧ t = (s.log (.cmd i)).raise (.lifecycle i.opcode))) := by
  obtain ⟨hf, hb⟩ := issue_next h
  refine ⟨hf, ?_⟩
  rcases whenIdle_next hb with ⟨hp, hb⟩ | ⟨hp, rfl⟩
  · cases hl : s.life with
    | active c =>
      simp only [log_life, hl, Host.Outcome.next.injEq] at hb
      exact .inr (.inr ⟨c, rfl, by simpa [State.phase, Life.phase, hl] using hp, hb.symm⟩)
    | unconstructed =>
      simp only [log_life, hl] at hb
      exact .inl ⟨.inl hl, hb⟩
    | released =>
      simp only [log_life, hl] at hb
      exact .inl ⟨.inr hl, hb⟩
  · exact .inr (.inl ⟨hp, rfl⟩)

/-- Every digit-select byte is one-hot. -/
theorem digitMask_oneHot (c : Slot) : oneHotMask (digitMask c) = true := by
  revert c
  decide

end Sys2Proof.Machine
end

