-- ==== Sys2Proof/Laws/Exec.lean ====
section
/-! SUPPORT. What a command and a step can do, said once: every invariant is derived from these. -/

namespace Sys2Proof.Machine

/-- The effects a command has when it does not fault: the controller, the trace after the command's own event, and
the draws. -/
inductive Effect (s : State) : Instr → State → Prop where
  | encc (c : Word) (hp : s.phase = .idle) :
      Effect s (.encc c) ((s.log (.cmd (.encc c))).respond (.okPattern (encodeChar s.cfg c)))
  | encd (n : Word) (p : Byte) (h : encodeDigit s.cfg n = some p) (hp : s.phase = .idle) :
      Effect s (.encd n) ((s.log (.cmd (.encd n))).respond (.okPattern p))
  | construct (t sh : Handle) (h : s.NoController) :
      Effect s (.construct t sh)
        (((s.log (.cmd (.construct t sh))).setIdleController (constructedController t sh)).respond .ok)
  | release (c : Controller) (h : s.life = .active c) (hp : c.phase = .idle) :
      Effect s .release
        (State.respond { (s.log (.cmd .release)) with life := .released } (.okHandles c.th c.sh))
  | wchars (w0 w1 w2 w3 : Word) (c : Controller) (h : s.life = .active c) (hp : c.phase = .idle) :
      Effect s (.wchars w0 w1 w2 w3) ((s.log (.cmd (.wchars w0 w1 w2 w3))).writeBuffer c
        (writeSlots c.bb 0#2 ([w0, w1, w2, w3].map (encodeChar s.cfg))))
  | wstr (text : List Word) (c : Controller) (h : s.life = .active c) (hp : c.phase = .idle) :
      Effect s (.wstr text) ((s.log (.cmd (.wstr text))).writeBuffer c
        (writeSlots clearedMemory 0#2 ((text.take 4).map (encodeChar s.cfg))))
  | wnum (n : Word) (c : Controller) (h : s.life = .active c) (hp : c.phase = .idle) :
      Effect s (.wnum n) ((s.log (.cmd (.wnum n))).writeBuffer c
        (writeSlots c.bb 0#2 ((decimalDigits (clamp s.cfg.numSigned n)).map s.cfg.digit)))
  | refresh (c : Controller) (h : s.life = .active c) (hp : c.phase = .idle) :
      Effect s .refresh ((s.log (.cmd .refresh)).beginRefresh c none)
  | refreshd (d : Handle) (c : Controller) (h : s.life = .active c) (hp : c.phase = .idle) :
      Effect s (.refreshd d) ((s.log (.cmd (.refreshd d))).beginRefresh c (some d))

/-- The model faults a command takes, with what each requires (spec/60_exceptions.md rule R155). -/
inductive Faults (s : State) : Instr → FaultMark → Prop where
  | illegal (i : Instr) (h : i.isReserved = true) : Faults s i (.illegalCommand i.opcode)
  | reentered (i : Instr) (h : i.isReserved = false) (hp : s.phase ≠ .idle) : Faults s i (.reentered i.opcode)
  | needs (i : Instr) (h : i.needsController = true) (hl : s.NoController) : Faults s i (.lifecycle i.opcode)
  | construct (t sh : Handle) (c : Controller) (h : s.life = .active c) (hp : c.phase = .idle) :
      Faults s (.construct t sh) (.lifecycle (Instr.construct t sh).opcode)
  | digitRange (n : Word) (h : encodeDigit s.cfg n = none) (hp : s.phase = .idle) :
      Faults s (.encd n) (.digitRange n)

/-- Inversion of `exec`: a command that answers a next state had no fault mark before it, and either has its effect
or records a model fault and changes nothing else. -/
theorem exec_next {i : Instr} {s t : State} (h : exec i s = .next t) :
    s.fault = none ∧ (Effect s i t ∨ ∃ f, Faults s i f ∧ t = (s.log (.cmd i)).raise f) := by
  cases i with
  | encc c =>
    obtain ⟨hf, ⟨hp, hb⟩ | ⟨hp, rfl⟩⟩ := encoderCommand_next h
    · cases hb
      exact ⟨hf, .inl (.encc c hp)⟩
    · exact ⟨hf, .inr ⟨_, .reentered _ rfl hp, rfl⟩⟩
  | encd n =>
    obtain ⟨hf, ⟨hp, hb⟩ | ⟨hp, rfl⟩⟩ := encoderCommand_next h
    · cases he : encodeDigit s.cfg n with
      | some p =>
        simp only [log_cfg, he, Host.Outcome.next.injEq] at hb
        exact ⟨hf, .inl (hb ▸ .encd n p he hp)⟩
      | none =>
        simp only [log_cfg, he, Host.Outcome.next.injEq] at hb
        exact ⟨hf, .inr ⟨_, .digitRange n he hp, hb.symm⟩⟩
    · exact ⟨hf, .inr ⟨_, .reentered _ rfl hp, rfl⟩⟩
  | construct t sh =>
    obtain ⟨hf, ⟨hl, hb⟩ | ⟨hp, rfl⟩ | ⟨c, hl, hp, rfl⟩⟩ := constructCommand_next h
    · cases hb
      exact ⟨hf, .inl (.construct t sh hl)⟩
    · exact ⟨hf, .inr ⟨_, .reentered _ rfl hp, rfl⟩⟩
    · exact ⟨hf, .inr ⟨_, .construct t sh c hl hp, rfl⟩⟩
  | release =>
    obtain ⟨hf, ⟨c, hl, hp, hb⟩ | ⟨hp, rfl⟩ | ⟨hl, rfl⟩⟩ := controllerCommand_next h
    · cases hb
      exact ⟨hf, .inl (.release c hl hp)⟩
    · exact ⟨hf, .inr ⟨_, .reentered _ rfl hp, rfl⟩⟩
    · exact ⟨hf, .inr ⟨_, .needs _ rfl hl, rfl⟩⟩
  | wchars w0 w1 w2 w3 =>
    obtain ⟨hf, ⟨c, hl, hp, hb⟩ | ⟨hp, rfl⟩ | ⟨hl, rfl⟩⟩ := controllerCommand_next h
    · cases hb
      exact ⟨hf, .inl (.wchars w0 w1 w2 w3 c hl hp)⟩
    · exact ⟨hf, .inr ⟨_, .reentered _ rfl hp, rfl⟩⟩
    · exact ⟨hf, .inr ⟨_, .needs _ rfl hl, rfl⟩⟩
  | wstr text =>
    obtain ⟨hf, ⟨c, hl, hp, hb⟩ | ⟨hp, rfl⟩ | ⟨hl, rfl⟩⟩ := controllerCommand_next h
    · cases hb
      exact ⟨hf, .inl (.wstr text c hl hp)⟩
    · exact ⟨hf, .inr ⟨_, .reentered _ rfl hp, rfl⟩⟩
    · exact ⟨hf, .inr ⟨_, .needs _ rfl hl, rfl⟩⟩
  | wnum n =>
    obtain ⟨hf, ⟨c, hl, hp, hb⟩ | ⟨hp, rfl⟩ | ⟨hl, rfl⟩⟩ := controllerCommand_next h
    · cases hb
      exact ⟨hf, .inl (.wnum n c hl hp)⟩
    · exact ⟨hf, .inr ⟨_, .reentered _ rfl hp, rfl⟩⟩
    · exact ⟨hf, .inr ⟨_, .needs _ rfl hl, rfl⟩⟩
  | refresh =>
    obtain ⟨hf, ⟨c, hl, hp, hb⟩ | ⟨hp, rfl⟩ | ⟨hl, rfl⟩⟩ := controllerCommand_next h
    · cases hb
      exact ⟨hf, .inl (.refresh c hl hp)⟩
    · exact ⟨hf, .inr ⟨_, .reentered _ rfl hp, rfl⟩⟩
    · exact ⟨hf, .inr ⟨_, .needs _ rfl hl, rfl⟩⟩
  | refreshd d =>
    obtain ⟨hf, ⟨c, hl, hp, hb⟩ | ⟨hp, rfl⟩ | ⟨hl, rfl⟩⟩ := controllerCommand_next h
    · cases hb
      exact ⟨hf, .inl (.refreshd d c hl hp)⟩
    · exact ⟨hf, .inr ⟨_, .reentered _ rfl hp, rfl⟩⟩
    · exact ⟨hf, .inr ⟨_, .needs _ rfl hl, rfl⟩⟩
  | illegalZero =>
    simp only [exec, execIllegalZero, illegalCommand] at h
    obtain ⟨hf, hb⟩ := issue_next h
    cases hb
    exact ⟨hf, .inr ⟨_, .illegal _ rfl, rfl⟩⟩
  | illegalHigh op =>
    simp only [exec, execIllegalHigh, illegalCommand] at h
    obtain ⟨hf, hb⟩ := issue_next h
    cases hb
    exact ⟨hf, .inr ⟨_, .illegal _ rfl, rfl⟩⟩

/-- No command runs once the fault mark is set. -/
theorem exec_faulted {s : State} {f : FaultMark} (h : s.fault = some f) (i : Instr) :
    exec i s = .fault (.stopped f) := by
  cases i <;>
    simp [exec, execEncc, execEncd, execConstruct, execRelease, execWchars, execWstr, execWnum, execRefresh,
      execRefreshd, execIllegalZero, execIllegalHigh, encoderCommand, constructCommand, controllerCommand,
      illegalCommand, issue_faulted h]

/-- A collaborator's answer moves a refresh on (spec/43_refresh.md rule R134). -/
inductive Answered (s : State) (c : Controller) : Answer → State → Prop where
  | lowOk (hp : c.phase = .waitLow) : Answered s c .ok ((s.log (.ans .ok)).shiftPayload c)
  | lowErr (hp : c.phase = .waitLow) (e : EP) :
      Answered s c (.pinErr e) ((s.log (.ans (.pinErr e))).endRefresh c c.strobe (.pinError e))
  | writeOk (hp : c.phase = .waitWrite) (hd : c.dly = none) :
      Answered s c .ok ((s.log (.ans .ok)).raiseStrobe c)
  | writeOkDelay (hp : c.phase = .waitWrite) (d : Handle) (hd : c.dly = some d) :
      Answered s c .ok
        (((s.log (.ans .ok)).setController { c with phase := .waitDelay }).log (.call d (.delay s.cfg.delayUs)))
  | writeErr (hp : c.phase = .waitWrite) (e : ET) :
      Answered s c (.transportErr e) ((s.log (.ans (.transportErr e))).endRefresh c c.strobe (.transportError e))
  | delayOk (hp : c.phase = .waitDelay) : Answered s c .ok ((s.log (.ans .ok)).raiseStrobe c)
  | highOk (hp : c.phase = .waitHigh) : Answered s c .ok ((s.log (.ans .ok)).endRefresh c .high .ok)
  | highErr (hp : c.phase = .waitHigh) (e : EP) :
      Answered s c (.pinErr e) ((s.log (.ans (.pinErr e))).endRefresh c c.strobe (.pinError e))

/-- Inversion of an answer. -/
theorem answerRefresh_next {a : Answer} {c : Controller} {s t : State} (h : answerRefresh a c s = .next t) :
    Answered s c a t := by
  unfold answerRefresh at h
  split at h <;> cases h
  · next hp => exact .lowOk hp
  · next e hp => exact .lowErr hp e
  · next hp =>
    unfold State.afterWrite
    split
    · next hd => exact .writeOk hp hd
    · next d hd => exact .writeOkDelay hp d hd
  · next e hp => exact .writeErr hp e
  · next hp => exact .delayOk hp
  · next hp => exact .highOk hp
  · next e hp => exact .highErr hp e

/-- Inversion of `step`: a command issued, a byte received, an answer, or an idle block with no event. -/
theorem step_next {s t : State} (h : step s = .next t) :
    s.fault = none ∧
      ((∃ i rest, decode s.rx = .command i rest ∧ exec i { s with rx := rest } = .next t) ∨
        (∃ b later, decode s.rx = .incomplete ∧ s.inbox = .byte b :: later ∧
          t = { s with rx := s.rx ++ [b], inbox := later }) ∨
        (∃ c a later, decode s.rx = .incomplete ∧ s.inbox = .answer a :: later ∧ s.life = .active c ∧
          Answered { s with inbox := later } c a t) ∨
        (decode s.rx = .incomplete ∧ s.inbox = [] ∧ s.phase = .idle ∧ t = s)) := by
  unfold step at h
  split at h
  · cases h
  · next hf =>
    refine ⟨hf, ?_⟩
    split at h
    · next i rest hd => exact .inl ⟨i, rest, hd, h⟩
    · next hd =>
      unfold nextEvent at h
      split at h
      · next hi =>
        unfold awaitEvent at h
        split at h
        · next hp => cases h; exact .inr (.inr (.inr ⟨hd, hi, hp, rfl⟩))
        · cases h
      · next b later hi => cases h; exact .inr (.inl ⟨b, later, hd, hi, rfl⟩)
      · next a later hi =>
        unfold receiveAnswer at h
        split at h
        · next c hl => exact .inr (.inr (.inl ⟨c, a, later, hd, hi, hl, answerRefresh_next h⟩))
        · cases h
        · cases h

end Sys2Proof.Machine
end

