-- ==== Sys2Proof/Laws/PerInstr.lean ====
section
/-! SUPPORT. Statements made per instruction. Family EncodingShape: the length of a command's frame is found at its
front (spec/30_encoding.md rules R71, R74), whatever bytes follow it. -/

namespace Sys2Proof.Laws.EncodingShape

/-- The frame of a well-formed command has the length that its first bytes announce. -/
def Statement (i : Instr) : Prop :=
  i.wf = true → ∀ rest, frameLength (encode i ++ rest) = some (encode i).length

theorem encc (c : Word) : Statement (.encc c) := fun _ _ => rfl
theorem encd (n : Word) : Statement (.encd n) := fun _ _ => rfl
theorem construct (t s : Handle) : Statement (.construct t s) := fun _ _ => rfl
theorem release : Statement .release := fun _ _ => rfl
theorem wchars (a b c d : Word) : Statement (.wchars a b c d) := fun _ _ => rfl

theorem wstr (text : List Word) : Statement (.wstr text) := fun h rest => by
  have hl : text.length < 2 ^ 32 := by simpa [Instr.wf] using h
  simp only [encode, Instr.opcode, Instr.operandWords, List.flatMap_cons, List.cons_append, List.append_assoc,
    frameLength, readWord_append, BitVec.toNat_ofNat, List.length_cons, List.length_append, wordBytes_length,
    flatMap_wordBytes_length]
  rw [Nat.mod_eq_of_lt hl]
  simp
  omega

theorem wnum (n : Word) : Statement (.wnum n) := fun _ _ => rfl
theorem refresh : Statement .refresh := fun _ _ => rfl
theorem refreshd (d : Handle) : Statement (.refreshd d) := fun _ _ => rfl
theorem illegalZero : Statement .illegalZero := fun _ _ => rfl

theorem illegalHigh (op : Byte) : Statement (.illegalHigh op) := fun h rest => by
  have hop : 0x0A ≤ op.toNat := by simpa [Instr.wf] using h
  have hne : ∀ k : Nat, k < 10 → op ≠ BitVec.ofNat 8 k := fun k hk e => by
    rw [e, BitVec.toNat_ofNat] at hop
    omega
  simp [encode, Instr.opcode, Instr.operandWords, frameLength, hne 1, hne 2, hne 3, hne 5, hne 6, hne 7, hne 9]

end Sys2Proof.Laws.EncodingShape
end

