-- ==== Sys2Proof/Machine/Assembler.lean ====
section
/-! DEFINITION. The textual form of commands, one a line, and the pseudo-commands (spec/30_encoding.md rules R78,
R79). A line is a list of characters; handle names are bound by the caller. Where rule R78 is silent (spaces, the
letters of a handle name, numbers outside a word, texts too long for L) notes/assumptions/15.md says what is done. -/

namespace Sys2Proof.Machine

/-- The handle words the platform gave to names. -/
abbrev Bindings := List (List Char × Handle)

def skipSpaces (cs : List Char) : List Char := cs.dropWhile fun c => c == ' '

def atEnd (cs : List Char) : Bool := skipSpaces cs == []

/-- The value of a decimal or hexadecimal digit. -/
def digitValue (c : Char) : Option Nat :=
  if 0x30 ≤ c.toNat ∧ c.toNat ≤ 0x39 then some (c.toNat - 0x30)
  else if 0x41 ≤ c.toNat ∧ c.toNat ≤ 0x46 then some (c.toNat - 0x37)
  else if 0x61 ≤ c.toNat ∧ c.toNat ≤ 0x66 then some (c.toNat - 0x57)
  else none

def isDigitOf (base : Nat) (c : Char) : Bool :=
  match digitValue c with
  | some v => decide (v < base)
  | none => false

/-- The number the leading digits write, and the characters after them. -/
def readDigits (base : Nat) : List Char → Nat → Nat × List Char
  | [], acc => (acc, [])
  | c :: cs, acc =>
    match digitValue c with
    | some v => if v < base then readDigits base cs (acc * base + v) else (acc, c :: cs)
    | none => (acc, c :: cs)

/-- "A number is decimal, or hexadecimal with `0x`" (rule R78). -/
def readNat (cs : List Char) : Option (Nat × List Char) :=
  match cs with
  | '0' :: 'x' :: c :: rest =>
    if isDigitOf 16 c then some (readDigits 16 (c :: rest) 0) else none
  | c :: rest => if isDigitOf 10 c then some (readDigits 10 (c :: rest) 0) else none
  | [] => none

/-- A number as a 32-bit word, refused where no 32-bit reading has it. -/
def wordOfInt (v : Int) : Option Word :=
  if -2 ^ 31 ≤ v ∧ v < 2 ^ 32 then some (BitVec.ofInt 32 v) else none

/-- A number operand, "with an optional leading `-`" (rule R78). -/
def readNumber (cs : List Char) : Option (Word × List Char) :=
  match cs with
  | '-' :: rest => do
    let (n, tail) ← readNat rest
    let w ← wordOfInt (-(n : Int))
    return (w, tail)
  | _ => do
    let (n, tail) ← readNat cs
    let w ← wordOfInt n
    return (w, tail)

/-- The code of a character. -/
def charCode (c : Char) : Word := BitVec.ofNat 32 c.toNat

/-- A character operand, quoted or as a number (rule R78). -/
def readChar (cs : List Char) : Option (Word × List Char) :=
  match cs with
  | '\'' :: c :: '\'' :: rest => some (charCode c, rest)
  | _ => readNumber cs

/-- The characters up to the closing quote. -/
def readQuoted : List Char → Option (List Word × List Char)
  | [] => none
  | c :: cs =>
    if c = '"' then some ([], cs)
    else
      match readQuoted cs with
      | some (ws, rest) => some (charCode c :: ws, rest)
      | none => none

/-- A string operand: "Its length L is the number of characters in it" (rule R78). L is a 32-bit word (rule R73), and
the rule does not say what an assembler does with a longer text: it is refused. DESIGN CHOICE
(notes/assumptions/15.md). -/
def readText (cs : List Char) : Option (List Word × List Char) :=
  match cs with
  | '"' :: rest =>
    match readQuoted rest with
    | some (ws, tail) => if ws.length < 2 ^ 32 then some (ws, tail) else none
    | none => none
  | _ => none

def isNameChar (c : Char) : Bool := c.isAlphanum || c == '_'

/-- A handle operand, `@name` (rule R78). -/
def readHandle (names : Bindings) (cs : List Char) : Option (Handle × List Char) :=
  match cs with
  | '@' :: rest => do
    let h ← names.lookup (rest.takeWhile isNameChar)
    return (h, rest.dropWhile isNameChar)
  | _ => none

/-- The comma between two operands. -/
def readComma (cs : List Char) : Option (List Char) :=
  match skipSpaces cs with
  | ',' :: rest => some (skipSpaces rest)
  | _ => none

/-- The operands of a command with one operand. -/
def oneOperand {α : Type} (read : List Char → Option (α × List Char)) (k : α → Instr) (cs : List Char) :
    Option (List Instr) := do
  let (v, rest) ← read cs
  if atEnd rest then return [k v] else none

/-- CONSTRUCT's two handles. -/
def constructOperands (names : Bindings) (cs : List Char) : Option (List Instr) := do
  let (t, r0) ← readHandle names cs
  let r1 ← readComma r0
  let (s, r2) ← readHandle names r1
  if atEnd r2 then return [.construct t s] else none

/-- WCHARS's four characters. -/
def wcharsOperands (cs : List Char) : Option (List Instr) := do
  let (a, r0) ← readChar cs
  let r1 ← readComma r0
  let (b, r2) ← readChar r1
  let r3 ← readComma r2
  let (c, r4) ← readChar r3
  let r5 ← readComma r4
  let (d, r6) ← readChar r5
  if atEnd r6 then return [.wchars a b c d] else none

/-- A line without operands. -/
def noOperands (is : List Instr) (cs : List Char) : Option (List Instr) := if atEnd cs then some is else none

/-- The mnemonics of rule R78 and the pseudo-commands of rule R79. -/
def assembleOperands (names : Bindings) (mnemonic cs : List Char) : Option (List Instr) :=
  if mnemonic = ['E', 'N', 'C', 'C'] then oneOperand readChar .encc cs
  else if mnemonic = ['E', 'N', 'C', 'D'] then oneOperand readNumber .encd cs
  else if mnemonic = ['C', 'O', 'N', 'S', 'T', 'R', 'U', 'C', 'T'] then constructOperands names cs
  else if mnemonic = ['R', 'E', 'L', 'E', 'A', 'S', 'E'] then noOperands [.release] cs
  else if mnemonic = ['W', 'C', 'H', 'A', 'R', 'S'] then wcharsOperands cs
  else if mnemonic = ['W', 'S', 'T', 'R'] then oneOperand readText .wstr cs
  else if mnemonic = ['W', 'N', 'U', 'M'] then oneOperand readNumber .wnum cs
  else if mnemonic = ['R', 'E', 'F', 'R', 'E', 'S', 'H'] then noOperands [.refresh] cs
  else if mnemonic = ['R', 'E', 'F', 'R', 'E', 'S', 'H', 'D'] then oneOperand (readHandle names) .refreshd cs
  else if mnemonic = ['C', 'L', 'E', 'A', 'R'] then noOperands Pseudo.clear.expand cs
  else if mnemonic = ['S', 'C', 'A', 'N'] then noOperands Pseudo.scan.expand cs
  else none

/-- One line: "a mnemonic, then its operands separated by commas" (rule R78). -/
def assembleLine (names : Bindings) (line : List Char) : Option (List Instr) :=
  let cs := skipSpaces line
  let rest := cs.dropWhile fun c => c.isUpper
  match rest with
  | [] => assembleOperands names (cs.takeWhile fun c => c.isUpper) []
  | ' ' :: _ => assembleOperands names (cs.takeWhile fun c => c.isUpper) (skipSpaces rest)
  | _ => none

/-- A text of lines, as commands. -/
def assemble (names : Bindings) : List (List Char) → Option (List Instr)
  | [] => some []
  | line :: lines => do
    let is ← assembleLine names line
    let rest ← assemble names lines
    return is ++ rest

/-- The bytes a host sends for commands, in order. -/
def programBytes (is : List Instr) : List Byte := is.flatMap encode

end Sys2Proof.Machine
end

