-- ==== Sys2Proof/Tests/Slice0.lean ====
section
/-! SUPPORT. Tests of the model against spec/95_test_vectors.md, each about one step, and a witness for the premises
of every statement. The vectors' names (EC1, W12, RV1, ...) are those of that file; expected values are its own. -/

namespace Sys2Proof.Tests

open Sys2Proof.Machine

/-! ## Helpers -/

/-- The start of spec/95_test_vectors.md section 6: BB = 89 CF BF FF, handles 1 and 2. -/
def controllerAt (cursor : Slot) (phase : Phase) (strobe : Strobe) : Controller where
  th := 1#32
  sh := 2#32
  bb := [(0, 0x89#8), (1, 0xCF#8), (2, 0xBF#8)]
  cursor := cursor
  phase := phase
  pat := 0x89#8
  mask := 0x08#8
  dly := none
  strobe := strobe

/-- A controller at rest. -/
def idleController : Controller := controllerAt 0#2 .idle .high

/-- The state whose controller is `c`, and nothing else happened. -/
def stateOf (c : Controller) : State := { State.reset with life := .active c }

/-- At rest, with a controller. -/
def idleState : State := stateOf idleController

/-- After RELEASE. -/
def releasedState : State := { State.reset with life := .released }

/-- The same state with WNUM read as two's complement. -/
def signed (s : State) : State := { s with cfg := { s.cfg with numSigned := true } }

/-- The start of spec/95_test_vectors.md section 5: BB = 00 00 00 00, cursor 2. -/
def zeroState : State :=
  stateOf { controllerAt 2#2 .idle .high with bb := [(0, 0x00#8), (1, 0x00#8), (2, 0x00#8), (3, 0x00#8)] }

/-- The last event of the trace. -/
def lastEvent : Result → Option Event
  | .next t => t.trace.getLast?
  | .fault _ => none
  | .refused _ => none

/-- The fault mark. -/
def markOf : Result → Option FaultMark
  | .next t => t.fault
  | .fault _ => none
  | .refused _ => none

/-- The controller's element `f`, where there is a controller. -/
def element {α : Type} (f : Controller → α) : Result → Option α
  | .next t =>
    match t.life with
    | .active c => some (f c)
    | .unconstructed => none
    | .released => none
  | .fault _ => none
  | .refused _ => none

/-- The four slots. -/
def slots (c : Controller) : List Byte :=
  [readSlot c.bb 0#2, readSlot c.bb 1#2, readSlot c.bb 2#2, readSlot c.bb 3#2]

/-- The Lean fault of a step that has no next state. -/
def stopOf : Result → Option Fault
  | .next _ => none
  | .fault f => some f
  | .refused _ => none

/-- A state that waits on the call of phase `p`, the call being the last event. -/
def waitingState (p : Phase) (strobe : Strobe) (call : Event) (dly : Option Handle) : State :=
  { stateOf { controllerAt 1#2 p strobe with dly := dly } with trace := [call] }

def waitLowState : State := waitingState .waitLow .unknown (.call 2#32 .strobeLow) none

def waitWriteState : State :=
  waitingState .waitWrite .low (.call 1#32 (.transportWrite [0x89#8, 0x08#8])) none

def waitDelayState : State := waitingState .waitDelay .low (.call 3#32 (.delay 100)) (some 3#32)

def waitHighState : State := waitingState .waitHigh .unknown (.call 2#32 .strobeHigh) none

/-- The state with the answers `as` to come. -/
def answers (s : State) (as : List Answer) : State := { s with inbox := as.map .answer }

/-- A value that each error type has. -/
def pinValue : EP := ⟨0, .inl rfl⟩

def transportValue : ET := ⟨0, .inl rfl⟩

/-! ## Well-formed commands -/

/-- A reserved row's opcode is 0x00 or 0x0A..0xFF (rule R75): 0x09 is REFRESHD's. -/
theorem test_wf_reserved_opcode_is_not_a_command : (Instr.illegalHigh 0x09#8).wf = false := by decide

theorem test_wf_first_reserved : (Instr.illegalHigh 0x0A#8).wf = true := by decide

/-- The length word has 32 bits (rules R71, R73). -/
theorem test_wf_text_too_long (text : List Word) (h : 2 ^ 32 ≤ text.length) : (Instr.wstr text).wf = false := by
  simpa [Instr.wf] using h

/-- Rule R82: a letter table whose U and V differ is no configuration. -/
theorem test_cfg_wf_refuses :
    ({ referenceConfig with letterRom := referenceLetterRom.set 20 0x00#8 } : Config).wf = false := by decide

/-! ## Decoding: the bytes of spec/95_test_vectors.md section 7 and of the command's own section -/

theorem test_decode_encc :
    decode [0x01#8, 0x00#8, 0x00#8, 0x21#8, 0x2A#8] = .command (.encc 0x0000212A#32) [] := by decide

theorem test_decode_encd :
    decode [0x02#8, 0x00#8, 0x00#8, 0x00#8, 0x0A#8] = .command (.encd 10#32) [] := by decide

theorem test_decode_construct :
    decode [0x03#8, 0x00#8, 0x00#8, 0x00#8, 0x05#8, 0x00#8, 0x00#8, 0x00#8, 0x06#8] =
      .command (.construct 5#32 6#32) [] := by decide

theorem test_decode_release : decode [0x04#8] = .command .release [] := by decide

theorem test_decode_wchars :
    decode [0x05#8, 0x00#8, 0x00#8, 0x00#8, 0x31#8, 0x00#8, 0x00#8, 0x00#8, 0x61#8, 0x00#8, 0x00#8, 0x00#8, 0x2D#8,
        0x00#8, 0x00#8, 0x00#8, 0x20#8] =
      .command (.wchars 0x31#32 0x61#32 0x2D#32 0x20#32) [] := by decide

theorem test_decode_wstr :
    decode [0x06#8, 0x00#8, 0x00#8, 0x00#8, 0x02#8, 0x00#8, 0x00#8, 0x00#8, 0x48#8, 0x00#8, 0x00#8, 0x00#8, 0x69#8] =
      .command (.wstr [0x48#32, 0x69#32]) [] := by decide

/-- X8: L = 2 needs 13 bytes, 9 are present. -/
theorem test_decode_wstr_incomplete :
    decode [0x06#8, 0x00#8, 0x00#8, 0x00#8, 0x02#8, 0x00#8, 0x00#8, 0x00#8, 0x41#8] = .incomplete := by decide

theorem test_decode_wnum :
    decode [0x07#8, 0x00#8, 0x00#8, 0x27#8, 0x0F#8] = .command (.wnum 9999#32) [] := by decide

theorem test_decode_refresh : decode [0x08#8] = .command .refresh [] := by decide

theorem test_decode_refreshd :
    decode [0x09#8, 0x00#8, 0x00#8, 0x00#8, 0x03#8] = .command (.refreshd 3#32) [] := by decide

theorem test_decode_illegal_zero : decode [0x00#8] = .command .illegalZero [] := by decide

theorem test_decode_illegal_high : decode [0x0A#8] = .command (.illegalHigh 0x0A#8) [] := by decide

/-- X10, as a whole string. -/
theorem test_decode_all_X10 :
    decodeAll [0x03#8, 0x00#8, 0x00#8, 0x00#8, 0x01#8, 0x00#8, 0x00#8, 0x00#8, 0x02#8, 0x05#8, 0x00#8, 0x00#8, 0x00#8,
        0x31#8, 0x00#8, 0x00#8, 0x00#8, 0x32#8, 0x00#8, 0x00#8, 0x00#8, 0x33#8, 0x00#8, 0x00#8, 0x00#8, 0x34#8] =
      ([.construct 1#32 2#32, .wchars 0x31#32 0x32#32 0x33#32 0x34#32], []) := by decide

/-- X7: WSTR needs its L word first. -/
theorem test_decode_all_X7 : decodeAll [0x06#8, 0x00#8, 0x00#8, 0x00#8] =
    ([], [0x06#8, 0x00#8, 0x00#8, 0x00#8]) := by decide

/-- X13 in the table's numbering of bits: the first byte in bits 7..0. -/
theorem test_table_word_encc : decodeTableWord 40 0x2D00000001 = some (.encc 0x2D#32) := by decide

/-- Operand words of zeros above the bits given. -/
theorem test_table_word_wstr : decodeTableWord 40 0x0100000006 = some (.wstr [0#32]) := by decide

theorem test_table_word_step :
    markOf (step (State.reset.withFetchWord 8 0x0A)) = some (.illegalCommand 0x0A#8) := by decide

/-! ## Encoder -/

/-- EC1. -/
theorem test_encc_digit_low :
    lastEvent (exec (.encc 0x30#32) State.reset) = some (.resp (.okPattern 0xC0#8)) := by decide

/-- EC24: the whole word is compared. -/
theorem test_encc_whole_word :
    lastEvent (exec (.encc 0x130#32) State.reset) = some (.resp (.okPattern 0xFF#8)) := by decide

/-- ED5. -/
theorem test_encd_nine : lastEvent (exec (.encd 9#32) State.reset) = some (.resp (.okPattern 0x90#8)) := by decide

/-- ED8: the operand is unsigned. -/
theorem test_encd_all_ones :
    markOf (exec (.encd 0xFFFFFFFF#32) releasedState) = some (.digitRange 0xFFFFFFFF#32) := by decide

/-- A row of the full map of section 2: 0x50 to 0x5F. -/
theorem test_encode_char_row5 :
    (List.range 16).map (fun k => encodeChar referenceConfig (BitVec.ofNat 32 (0x50 + k))) =
      [0x8C#8, 0x98#8, 0xAF#8, 0x92#8, 0x87#8, 0xC1#8, 0xC1#8, 0xD5#8, 0x89#8, 0x91#8, 0xA4#8, 0xFF#8, 0xFF#8, 0xFF#8,
        0xFF#8, 0xF7#8] := by decide

/-- The row 0x60 to 0x6F: case folding. -/
theorem test_encode_char_row6 :
    (List.range 16).map (fun k => encodeChar referenceConfig (BitVec.ofNat 32 (0x60 + k))) =
      [0xFF#8, 0x88#8, 0x83#8, 0xC6#8, 0xA1#8, 0x86#8, 0x8E#8, 0xC2#8, 0x89#8, 0xCF#8, 0xE1#8, 0x8A#8, 0xC7#8, 0xC8#8,
        0xAB#8, 0xA3#8] := by decide

/-! ## Lifecycle -/

/-- LC5. -/
theorem test_construct_after_release :
    element (fun c => (c.th, c.sh, slots c, c.cursor, c.strobe)) (exec (.construct 5#32 6#32) releasedState) =
      some (5#32, 6#32, [0xFF#8, 0xFF#8, 0xFF#8, 0xFF#8], 0#2, .unknown) := by decide

/-- LC4. -/
theorem test_construct_while_active :
    markOf (exec (.construct 1#32 2#32) idleState) = some (.lifecycle 0x03#8) := by decide

/-- LC2. -/
theorem test_release : lastEvent (exec .release idleState) = some (.resp (.okHandles 1#32 2#32)) := by decide

/-- LC3. -/
theorem test_release_twice : markOf (exec .release releasedState) = some (.lifecycle 0x04#8) := by decide

/-! ## Buffer writes -/

/-- W1. -/
theorem test_wchars_W1 :
    element slots (exec (.wchars 0x31#32 0x61#32 0x2D#32 0x20#32) zeroState) =
      some [0xF9#8, 0x88#8, 0xBF#8, 0xFF#8] := by decide

/-- W6. -/
theorem test_wchars_W6 :
    element slots (exec (.wchars 0x00#32 0xE9#32 0x212A#32 0xFFFFFFFF#32) zeroState) =
      some [0xFF#8, 0xFF#8, 0xFF#8, 0xFF#8] := by decide

/-- W14: the fifth character is consumed and ignored. -/
theorem test_wstr_W14 :
    element slots (exec (.wstr [0x48#32, 0x45#32, 0x4C#32, 0x4C#32, 0x4F#32]) zeroState) =
      some [0x89#8, 0x86#8, 0xC7#8, 0xC7#8] := by decide

/-- W17: the clear happens before the write. -/
theorem test_wstr_W17 :
    element slots (exec (.wstr [0x2D#32]) zeroState) = some [0xBF#8, 0xFF#8, 0xFF#8, 0xFF#8] := by decide

/-- WN6: thousands first. -/
theorem test_wnum_WN6 :
    element slots (exec (.wnum 1234#32) zeroState) = some [0xF9#8, 0xA4#8, 0xB0#8, 0x99#8] := by decide

/-- WN10 and WN11: the word 0x80000000 under both readings. -/
theorem test_wnum_signedness :
    element slots (exec (.wnum 0x80000000#32) zeroState) = some [0x90#8, 0x90#8, 0x90#8, 0x90#8] ∧
    element slots (exec (.wnum 0x80000000#32) (signed zeroState)) = some [0xC0#8, 0xC0#8, 0xC0#8, 0xC0#8] := by
  decide

/-! ## Refresh -/

/-- RV4: cursor 3 wraps; the payload of the step is `[FF, 01]`. -/
theorem test_refresh_wraps :
    element (fun c => (c.pat, c.mask, c.cursor, c.phase)) (exec .refresh (stateOf (controllerAt 3#2 .idle .high))) =
      some (0xFF#8, 0x01#8, 0#2, .waitLow) := by decide

/-- RV12's first call. -/
theorem test_refreshd :
    element (fun c => (c.dly, c.strobe)) (exec (.refreshd 3#32) idleState) = some (some 3#32, .unknown) ∧
    lastEvent (exec (.refreshd 3#32) idleState) = some (.call 2#32 .strobeLow) := by decide

/-- RV1, the answer to StrobeLow. -/
theorem test_answer_low :
    lastEvent (step (answers waitLowState [.ok])) = some (.call 1#32 (.transportWrite [0x89#8, 0x08#8])) := by decide

/-- RV6, the transport's error: the strobe stays low. -/
theorem test_answer_write_error :
    lastEvent (step (answers waitWriteState [.transportErr transportValue])) =
      some (.resp (.transportError transportValue)) ∧
    element (fun c => (c.strobe, c.phase, c.cursor)) (step (answers waitWriteState [.transportErr transportValue])) =
      some (.low, .idle, 1#2) := by decide

/-- RV20: a command while the write is pending; the buffer is unchanged. -/
theorem test_reentered :
    markOf (exec (.wnum 1#32) waitWriteState) = some (.reentered 0x07#8) ∧
    element slots (exec (.wnum 1#32) waitWriteState) = some [0x89#8, 0xCF#8, 0xBF#8, 0xFF#8] := by decide

/-- RV21: the reentry check comes before the digit range. -/
theorem test_reentered_before_range :
    markOf (exec (.encd 10#32) waitLowState) = some (.reentered 0x02#8) := by decide

/-- RV22: the decoder's fault comes first. -/
theorem test_illegal_before_reentered :
    markOf (exec (.illegalHigh 0x0A#8) waitHighState) = some (.illegalCommand 0x0A#8) := by decide

theorem test_illegal_zero : markOf (exec .illegalZero State.reset) = some (.illegalCommand 0x00#8) := by decide

/-- RV16: a Delay that never answers. -/
theorem test_hang : stopOf (step waitDelayState) = some (.hung .waitDelay) := by decide

/-- A marked state has no step (rule R35). -/
theorem test_stopped :
    stopOf (step (State.reset.raise (.illegalCommand 0x00#8))) = some (.stopped (.illegalCommand 0x00#8)) := by decide

/-- The wire bits of RV1: `1000 1001 0000 1000`. -/
theorem test_wire_bits :
    wireBits [0x89#8, 0x08#8] =
      [true, false, false, false, true, false, false, true, false, false, false, false, true, false, false,
        false] := by decide

/-! ## The textual form -/

/-- `WCHARS 'E', 'r', 'r', ' '` (P3). -/
theorem test_assemble_wchars :
    assembleLine [] "WCHARS 'E', 'r', 'r', ' '".toList = some [.wchars 0x45#32 0x72#32 0x72#32 0x20#32] := by decide

/-- `WSTR "Hi-"` (P2) and its frame. -/
theorem test_assemble_wstr :
    assembleLine [] ("WSTR \"Hi-\"".toList) = some [.wstr [0x48#32, 0x69#32, 0x2D#32]] := by decide

/-- `CONSTRUCT @t, @s` (P1). -/
theorem test_assemble_construct :
    assembleLine [(['t'], 1#32), (['s'], 2#32)] "CONSTRUCT @t, @s".toList = some [.construct 1#32 2#32] := by decide

/-- "A number is decimal, or hexadecimal with `0x`, with an optional leading `-`" (rule R78). -/
theorem test_assemble_numbers :
    assembleLine [] "WNUM -1".toList = some [.wnum 0xFFFFFFFF#32] ∧
    assembleLine [] "ENCD 0x10".toList = some [.encd 16#32] := by decide

/-- `SCAN` (rule R79). -/
theorem test_assemble_scan :
    assembleLine [] "SCAN".toList = some [.refresh, .refresh, .refresh, .refresh] := by decide

/-! ## Witnesses: for every statement with premises, a state and operands that meet them, each clause at a boundary -/

theorem witness_DecodeReadsBackEncode :
    (Instr.encc 0xFFFFFFFF#32).wf = true ∧ (Instr.wchars 0#32 1#32 2#32 3#32).wf = true ∧ (Instr.wstr []).wf = true ∧
    (Instr.illegalHigh 0x0A#8).wf = true ∧ (Instr.illegalHigh 0xFF#8).wf = true := by decide

theorem witness_DecodedBytesAreTheFrame :
    decode [0xFF#8, 0x08#8] = .command (.illegalHigh 0xFF#8) [0x08#8] ∧
    decode [0x06#8, 0x00#8, 0x00#8, 0x00#8, 0x00#8] = .command (.wstr []) [] := by decide

/-- The clauses in order: the opcode byte alone; no length yet, with no byte and without L's last byte; a frame one
byte short and a frame exactly complete; a byte that arrives. -/
theorem witness_FrameLengthFoundAtFront :
    (0x05#8 ≠ 0x06#8) ∧ frameLength [] = none ∧ frameLength [0x06#8, 0x00#8, 0x00#8, 0x00#8] = none ∧
    (frameLength [0x07#8, 0x00#8, 0x00#8, 0x00#8] = some 5 ∧ [0x07#8, 0x00#8, 0x00#8, 0x00#8].length < 5) ∧
    (frameLength [0x07#8, 0x00#8, 0x00#8, 0x00#8, 0x01#8] = some 5 ∧
      5 ≤ [0x07#8, 0x00#8, 0x00#8, 0x00#8, 0x01#8].length) ∧
    (idleState.fault = none ∧ decode idleState.rx = .incomplete ∧
      ({ idleState with inbox := [.byte 0x08#8] } : State).inbox = .byte 0x08#8 :: []) := by decide

theorem witness_ReservedOpcodesFault :
    (0x0A ≤ (0x0A#8).toNat) ∧ (0x0A ≤ (0xFF#8).toNat) ∧ State.reset.fault = none ∧ waitHighState.fault = none := by
  decide

theorem witness_ReservedRowsComplete : releasedState.fault = none ∧ waitHighState.fault = none := by decide

theorem witness_StepRunsTheDecodedCommand :
    let s : State := { idleState with rx := [0x08#8, 0x01#8] }
    s.fault = none ∧ decode s.rx = .command .refresh [0x01#8] := by decide

/-- ENCC and ENCD: ready in every lifecycle state (also for EncdResponds, with k = 0 and k = 9). -/
theorem witness_EnccResponds : State.reset.Ready ∧ idleState.Ready ∧ releasedState.Ready := by decide

theorem witness_EncdResponds :
    State.reset.Ready ∧ (BitVec.ofNat 32 (0 : Fin 10).val) = 0#32 ∧ BitVec.ofNat 32 (9 : Fin 10).val = 9#32 := by decide

theorem witness_EncdOutOfRangeFaults :
    releasedState.Ready ∧ 10 ≤ (10#32).toNat ∧ 10 ≤ (0xFFFFFFFF#32).toNat := by decide

/-- The ends of each class, and codes beside them that are in none. -/
theorem witness_EncodeCharByClass :
    (0x30#32).toNat = 0x30 + (0 : Fin 10) ∧ (0x39#32).toNat = 0x30 + (9 : Fin 10) ∧
    (0x41#32).toNat = 0x41 + (0 : Fin 26) ∧ (0x5A#32).toNat = 0x41 + (25 : Fin 26) ∧
    (0x61#32).toNat = 0x61 + (0 : Fin 26) ∧ (0x7A#32).toNat = 0x61 + (25 : Fin 26) ∧
    ∀ c ∈ [0x00#32, 0x21#32, 0x2F#32, 0x3A#32, 0x40#32, 0x5B#32, 0x60#32, 0x7B#32, 0xFFFFFFFF#32],
      ¬ (0x30 ≤ c.toNat ∧ c.toNat ≤ 0x39) ∧ ¬ (0x41 ≤ c.toNat ∧ c.toNat ≤ 0x5A) ∧
      ¬ (0x61 ≤ c.toNat ∧ c.toNat ≤ 0x7A) ∧ c ≠ 0x20#32 ∧ c ≠ 0x2D#32 ∧ c ≠ 0x5F#32 :=
  ⟨rfl, rfl, rfl, rfl, rfl, rfl, by simp⟩

theorem witness_EncoderProperties :
    (0x30 ≤ (0x30#32).toNat ∧ (0x30#32).toNat ≤ 0x39) ∧ (0x30 ≤ (0x39#32).toNat ∧ (0x39#32).toNat ≤ 0x39) ∧
    (0x41 ≤ (0x41#32).toNat ∧ (0x41#32).toNat ≤ 0x5A) ∧ (0x41 ≤ (0x5A#32).toNat ∧ (0x5A#32).toNat ≤ 0x5A) ∧
    classify 0x2F#32 = .other ∧ classify 0x7B#32 = .other ∧ classify 0x00#32 = .other := by decide

theorem witness_FixedPatternsLight :
    classify 0x2F#32 = .other ∧ classify 0x60#32 = .other ∧ classify 0xFFFFFFFF#32 = .other := by decide

theorem witness_UAndVShareAPattern : referenceConfig.letterRom[20] = referenceConfig.letterRom[21] := by decide

theorem witness_ConstructEstablishesResetState :
    (State.reset.fault = none ∧ State.reset.NoController) ∧
    (releasedState.fault = none ∧ releasedState.NoController) := by
  decide

theorem witness_ReleaseReturnsHandles : idleState.ReadyWith idleController := by decide

/-- A CONSTRUCT that does not fault; a step that keeps the controller, and the RELEASE that ends it. -/
theorem witness_HandlesKeptUntilReleased :
    (∃ t, exec (.construct 5#32 6#32) releasedState = .next t ∧ t.fault = none) ∧
    idleState.life = .active idleController ∧ step idleState = .next idleState ∧
    ∃ t, step { idleState with rx := [0x04#8] } = .next t ∧ t.life = .released := by
  refine ⟨⟨_, rfl, rfl⟩, rfl, rfl, _, rfl, rfl⟩

theorem witness_MisuseOfLifecycleFaults :
    (State.reset.fault = none ∧ State.reset.NoController ∧ Instr.refresh.needsController = true) ∧
    (releasedState.NoController ∧ (Instr.wstr []).needsController = true) ∧ idleState.ReadyWith idleController := by
  decide

theorem witness_CommandDuringRefreshFaults :
    (waitLowState.fault = none ∧ waitLowState.phase ≠ .idle ∧ (Instr.encd 10#32).isReserved = false) ∧
    (waitHighState.fault = none ∧ waitHighState.phase ≠ .idle ∧ (Instr.construct 1#32 2#32).isReserved = false) := by
  decide

theorem witness_NoCallsWithoutController :
    State.reset.NoController ∧ releasedState.NoController ∧ step State.reset = .next State.reset ∧
    releasedState.fault = none ∧ Instr.release.needsController = true :=
  ⟨by decide, by decide, rfl, rfl, rfl⟩

/-- A command whose run at power-up sets no mark, the premise of the first of the two clauses on commands. -/
theorem witness_PowerUpState :
    ∃ t, exec (.encd 9#32) { State.reset with cfg := referenceConfig } = .next t ∧ t.fault = none := ⟨_, rfl, rfl⟩

theorem witness_WcharsFillsSlots : zeroState.ReadyWith { controllerAt 2#2 .idle .high with
    bb := [(0, 0x00#8), (1, 0x00#8), (2, 0x00#8), (3, 0x00#8)] } := by decide

/-- An index inside the text and one at its end, for texts of 0, 3 and 5 characters. -/
theorem witness_WstrTruncatesAndPads :
    idleState.ReadyWith idleController ∧ ([] : List Word).length ≤ (0#2).toNat ∧
    ((2#2).toNat < [1#32, 2#32, 3#32].length ∧ [1#32, 2#32, 3#32].length ≤ (3#2).toNat) ∧
    (3#2).toNat < [1#32, 2#32, 3#32, 4#32, 5#32].length := by decide

theorem witness_WnumWritesDigits :
    idleState.ReadyWith idleController ∧ (signed idleState).ReadyWith idleController ∧
    ((signed idleState).cfg.numSigned = true ∧ (0xFFFFFFFF#32).toInt < 0) ∧ ¬ (0x7FFFFFFF#32).toInt < 0 := by decide

/-- The least number above 9999, and under the two's complement reading the greatest. -/
theorem witness_WnumSevenAndClamp :
    idleState.ReadyWith idleController ∧
    (if idleState.cfg.numSigned = true then (10000#32).toInt else ((10000#32).toNat : Int)) > 9999 ∧
    (if (signed idleState).cfg.numSigned = true then (0x7FFFFFFF#32).toInt else ((0x7FFFFFFF#32).toNat : Int)) > 9999 := by
  decide

/-- The invariant in a state at rest. -/
theorem witness_inv_idle : idleState.Inv where
  cfg_wf := by decide
  controller_wf := fun c h => by cases h; decide
  waits_on := fun c h _ => by cases h; decide

/-- The invariant in a state that waits. -/
theorem witness_inv_waiting : waitDelayState.Inv where
  cfg_wf := by decide
  controller_wf := fun c h => by cases h; decide
  waits_on := fun c h _ => by cases h; decide

theorem witness_BufferWriteFrame :
    idleState.Inv ∧ idleState.life = .active idleController ∧ (Instr.wstr []).isBufferWrite = true ∧
    (∃ t, exec (.wstr []) idleState = .next t ∧ t.fault = none) ∧ 4 ≤ 4 :=
  ⟨witness_inv_idle, rfl, rfl, ⟨_, rfl, rfl⟩, le_rfl⟩

theorem witness_BufferWritesAreIdempotent :
    idleState.ReadyWith idleController ∧ (Instr.wnum 7#32).isBufferWrite = true ∧
    ∃ t c', exec (.wnum 7#32) idleState = .next t ∧ t.life = .active c' :=
  ⟨by decide, rfl, _, _, rfl, rfl⟩

/-- A REFRESH step, which writes no slot. -/
theorem witness_OnlyWritesChangeBuffer :
    let s : State := { idleState with rx := [0x08#8] }
    s.life = .active idleController ∧ (∃ t c', step s = .next t ∧ t.life = .active c') ∧
    ∀ i rest, decode s.rx = .command i rest → i.isBufferWrite = false := by
  refine ⟨rfl, ⟨_, _, rfl, rfl⟩, fun i rest h => ?_⟩
  cases h
  rfl

theorem witness_RefreshCapturesThenAdvances :
    (stateOf (controllerAt 3#2 .idle .low)).ReadyWith (controllerAt 3#2 .idle .low) := by decide

theorem witness_RefreshdCapturesThenAdvances :
    (stateOf (controllerAt 0#2 .idle .unknown)).ReadyWith (controllerAt 0#2 .idle .unknown) := by decide

/-- `waitWriteState` with a delay source: the next phase is WaitDelay. -/
def waitWriteDelayed : Controller := { controllerAt 1#2 .waitWrite .low with dly := some 3#32 }

theorem witness_AnswersMoveRefreshOn :
    (answers waitLowState [.ok]).Receives (controllerAt 1#2 .waitLow .unknown) .ok [] ∧
    (answers waitWriteState [.ok]).Receives (controllerAt 1#2 .waitWrite .low) .ok [] ∧
    (controllerAt 1#2 .waitWrite .low).dly = none ∧
    (answers (stateOf waitWriteDelayed) [.ok]).Receives waitWriteDelayed .ok [] ∧ waitWriteDelayed.dly = some 3#32 ∧
    (answers waitDelayState [.ok]).Receives { controllerAt 1#2 .waitDelay .low with dly := some 3#32 } .ok [] := by
  decide

theorem witness_AnswersEndRefresh :
    (answers waitLowState [.pinErr pinValue]).Receives (controllerAt 1#2 .waitLow .unknown) (.pinErr pinValue) [] ∧
    (answers waitWriteState [.transportErr transportValue]).Receives (controllerAt 1#2 .waitWrite .low)
      (.transportErr transportValue) [] ∧
    (answers waitHighState [.ok]).Receives (controllerAt 1#2 .waitHigh .unknown) .ok [] ∧
    (answers waitHighState [.pinErr pinValue]).Receives (controllerAt 1#2 .waitHigh .unknown) (.pinErr pinValue) [] := by
  decide

theorem witness_OtherAnswersHaveNoTransition :
    ((answers idleState [.ok]).fault = none ∧ decode (answers idleState [.ok]).rx = .incomplete ∧
      (answers idleState [.ok]).inbox = .answer .ok :: [] ∧ (answers idleState [.ok]).phase = .idle) ∧
    (answers waitDelayState [.pinErr pinValue]).Receives { controllerAt 1#2 .waitDelay .low with dly := some 3#32 }
      (.pinErr pinValue) [] ∧
    (answers waitWriteState [.pinErr pinValue]).Receives (controllerAt 1#2 .waitWrite .low) (.pinErr pinValue) [] ∧
    (answers waitDelayState [.transportErr transportValue]).Receives
      { controllerAt 1#2 .waitDelay .low with dly := some 3#32 } (.transportErr transportValue) [] ∧
    (answers waitLowState [.transportErr transportValue]).Receives (controllerAt 1#2 .waitLow .unknown)
      (.transportErr transportValue) [] ∧
    (answers waitHighState [.transportErr transportValue]).Receives (controllerAt 1#2 .waitHigh .unknown)
      (.transportErr transportValue) [] := by decide

theorem witness_UnansweredCallHangs :
    ∀ s ∈ [waitLowState, waitWriteState, waitDelayState, waitHighState],
      s.fault = none ∧ s.phase ≠ .idle ∧ decode s.rx = .incomplete ∧ s.inbox = [] := by decide

theorem witness_CursorAdvancesWhateverHappens :
    (idleState.ReadyWith idleController ∧ Instr.refresh.isRefresh = true ∧ (Instr.refreshd 3#32).isRefresh = true) ∧
    (answers waitLowState [.pinErr pinValue]).Receives (controllerAt 1#2 .waitLow .unknown) (.pinErr pinValue) [] ∧
    ∃ t, step (answers waitLowState [.pinErr pinValue]) = .next t := ⟨by decide, by decide, _, rfl⟩

/-- A WNUM step, which is no refresh. -/
theorem witness_OnlyRefreshMovesCursor :
    let s : State := { idleState with rx := [0x07#8, 0x00#8, 0x00#8, 0x00#8, 0x07#8] }
    s.life = .active idleController ∧ (∃ t c', step s = .next t ∧ t.life = .active c') ∧
    ∀ i rest, decode s.rx = .command i rest → i.isRefresh = false := by
  refine ⟨rfl, ⟨_, _, rfl, rfl⟩, fun i rest h => ?_⟩
  cases h
  rfl

/-- The state with a frame in the command port and the answers to come. -/
def issuing (frame : List Byte) (as : List Answer) : State := answers { idleState with rx := frame } as

def delayFrame : List Byte := [0x09#8, 0x00#8, 0x00#8, 0x00#8, 0x03#8]

theorem witness_SuccessfulRefreshTrace :
    ((issuing [0x08#8] [.ok, .ok, .ok]).ReadyWith idleController ∧
      (issuing [0x08#8] [.ok, .ok, .ok]).Issues .refresh [] ∧
      (issuing [0x08#8] [.ok, .ok, .ok]).inbox = .answer .ok :: .answer .ok :: .answer .ok :: []) ∧
    ((issuing delayFrame [.ok, .ok, .ok, .ok]).ReadyWith idleController ∧
      (issuing delayFrame [.ok, .ok, .ok, .ok]).Issues (.refreshd 3#32) [] ∧
      (issuing delayFrame [.ok, .ok, .ok, .ok]).inbox =
        .answer .ok :: .answer .ok :: .answer .ok :: .answer .ok :: []) := by decide

theorem witness_FailedRefreshOutcomes :
    ((issuing [0x08#8] [.pinErr pinValue]).ReadyWith idleController ∧ Instr.refresh.isRefresh = true ∧
      (issuing [0x08#8] [.pinErr pinValue]).Issues .refresh [] ∧
      (issuing [0x08#8] [.pinErr pinValue]).inbox = .answer (.pinErr pinValue) :: []) ∧
    ((issuing delayFrame [.ok, .transportErr transportValue]).ReadyWith idleController ∧
      (Instr.refreshd 3#32).isRefresh = true ∧
      (issuing delayFrame [.ok, .transportErr transportValue]).Issues (.refreshd 3#32) [] ∧
      (issuing delayFrame [.ok, .transportErr transportValue]).inbox =
        .answer .ok :: .answer (.transportErr transportValue) :: []) ∧
    ((issuing [0x08#8] [.ok, .ok, .pinErr pinValue]).ReadyWith idleController ∧
      (issuing [0x08#8] [.ok, .ok, .pinErr pinValue]).Issues .refresh [] ∧
      (issuing [0x08#8] [.ok, .ok, .pinErr pinValue]).inbox =
        .answer .ok :: .answer .ok :: .answer (.pinErr pinValue) :: []) ∧
    ((issuing delayFrame [.ok, .ok, .ok, .pinErr pinValue]).ReadyWith idleController ∧
      (issuing delayFrame [.ok, .ok, .ok, .pinErr pinValue]).Issues (.refreshd 3#32) [] ∧
      (issuing delayFrame [.ok, .ok, .ok, .pinErr pinValue]).inbox =
        .answer .ok :: .answer .ok :: .answer .ok :: .answer (.pinErr pinValue) :: []) := by decide

/-- Each of the three phases that end on an error. -/
theorem witness_NoErrorIsSwallowed :
    ((answers waitLowState [.pinErr pinValue]).Receives (controllerAt 1#2 .waitLow .unknown) (.pinErr pinValue) [] ∧
      ∃ t, step (answers waitLowState [.pinErr pinValue]) = .next t) ∧
    ((answers waitWriteState [.transportErr transportValue]).Receives (controllerAt 1#2 .waitWrite .low)
      (.transportErr transportValue) [] ∧
      ∃ t, step (answers waitWriteState [.transportErr transportValue]) = .next t) ∧
    ((answers waitHighState [.pinErr pinValue]).Receives (controllerAt 1#2 .waitHigh .unknown) (.pinErr pinValue) [] ∧
      ∃ t, step (answers waitHighState [.pinErr pinValue]) = .next t) :=
  ⟨⟨by decide, _, rfl⟩, ⟨by decide, _, rfl⟩, ⟨by decide, _, rfl⟩⟩

/-- A step that makes a call, and one that makes none. -/
theorem witness_CallsGoToTheirOwners :
    (answers waitDelayState [.ok]).Inv ∧ (∃ t, step (answers waitDelayState [.ok]) = .next t) ∧
    idleState.Inv ∧ step idleState = .next idleState :=
  ⟨⟨by decide, fun c h => by cases h; decide, fun c h _ => by cases h; decide⟩, ⟨_, rfl⟩, witness_inv_idle, rfl⟩

/-- A command that answers, one that faults, a refresh; an answer that goes on, one that ends. -/
theorem witness_OneResponsePerCommand :
    (∃ t, exec (.wnum 7#32) idleState = .next t ∧ t.fault = none) ∧
    (∃ t, exec (.encd 10#32) idleState = .next t ∧ t.fault ≠ none) ∧
    (∃ t, exec .refresh idleState = .next t ∧ t.phase ≠ .idle) ∧
    ((answers waitLowState [.ok]).Receives (controllerAt 1#2 .waitLow .unknown) .ok [] ∧
      ∃ t, step (answers waitLowState [.ok]) = .next t) ∧
    ((answers waitHighState [.ok]).Receives (controllerAt 1#2 .waitHigh .unknown) .ok [] ∧
      ∃ t, step (answers waitHighState [.ok]) = .next t) :=
  ⟨⟨_, rfl, rfl⟩, ⟨_, rfl, by decide⟩, ⟨_, rfl, by decide⟩, ⟨by decide, _, rfl⟩, ⟨by decide, _, rfl⟩⟩

/-- Each listed fault is taken somewhere (also for FaultChangesNothingElse). -/
theorem witness_OnlyListedFaults :
    (∃ t, exec .illegalZero waitLowState = .next t ∧ t.fault = some (.illegalCommand 0x00#8)) ∧
    (∃ t, exec (.encd 10#32) State.reset = .next t ∧ t.fault = some (.digitRange 10#32)) ∧
    (∃ t, exec .refresh State.reset = .next t ∧ t.fault = some (.lifecycle 0x08#8)) ∧
    (∃ t, exec (.construct 1#32 2#32) idleState = .next t ∧ t.fault = some (.lifecycle 0x03#8)) ∧
    (∃ t, exec .release waitHighState = .next t ∧ t.fault = some (.reentered 0x04#8)) :=
  ⟨⟨_, rfl, rfl⟩, ⟨_, rfl, rfl⟩, ⟨_, rfl, rfl⟩, ⟨_, rfl, rfl⟩, ⟨_, rfl, rfl⟩⟩

theorem witness_FaultChangesNothingElse :
    ∃ t, exec .refresh releasedState = .next t ∧ t.fault = some (.lifecycle 0x08#8) := ⟨_, rfl, rfl⟩

theorem witness_FaultIsSticky :
    (State.reset.raise (.reentered 0x08#8)).fault = some (.reentered 0x08#8) := by decide

theorem witness_IdleBlockKeepsItsState :
    idleState.Ready ∧ decode idleState.rx = .incomplete ∧ idleState.inbox = [] ∧
    ({ idleState with rx := [0x06#8, 0x00#8] } : State).Ready ∧ decode [0x06#8, 0x00#8] = .incomplete := by decide

theorem witness_TraceOnlyGrows : ∃ t, step { idleState with rx := [0x08#8] } = .next t := ⟨_, rfl⟩

theorem witness_ParametersAreConstant : ∃ t, step (signed { idleState with rx := [0x04#8] }) = .next t := ⟨_, rfl⟩

/-- A step from a state at rest and one from a state that waits. -/
theorem witness_EveryStepKeepsInvariant :
    (idleState.Inv ∧ step idleState = .next idleState) ∧
    (waitDelayState.Inv ∧ ∃ t, exec .refresh waitDelayState = .next t) :=
  ⟨⟨witness_inv_idle, rfl⟩, witness_inv_waiting, _, rfl⟩

/-- Every reading of WNUM meets the premise. -/
theorem witness_InvariantAtPowerUp :
    referenceConfig.wf = true ∧ ({ referenceConfig with numSigned := true, delayUs := 0 } : Config).wf = true := by
  decide

theorem witness_reset_inv : State.reset.Inv where
  cfg_wf := by decide
  controller_wf := fun c h => nomatch h
  waits_on := fun c h _ => nomatch h

/-- A platform on handles 1 and 2 whose latch needs no pause. -/
def platform : Platform where
  th := 1#32
  sh := 2#32
  settles := true

/-- After a refresh that showed `[89, 08]`. -/
def shownTrace : List Event :=
  [.cmd .refresh, .call 2#32 .strobeLow, .ans .ok, .call 1#32 (.transportWrite [0x89#8, 0x08#8]), .ans .ok,
    .call 2#32 .strobeHigh, .ans .ok, .resp .ok]

/-- D22: the latched pair is unknown after a transport failure. -/
theorem test_display_transport_failure :
    (observe platform (shownTrace ++ [.cmd .refresh, .call 2#32 .strobeLow, .ans .ok,
      .call 1#32 (.transportWrite [0xCF#8, 0x04#8]), .ans (.transportErr transportValue)])).shown = none := by decide

theorem witness_DisplayAfterRefresh :
    (observe platform []).pending = none ∧
    (observe platform [.call 2#32 .strobeLow, .ans .ok]).pending = none := by decide

/-- The trace of RV1 (spec/95_test_vectors.md section 6): one payload, the mask of slot 0, and its frame is shown. -/
theorem witness_AtMostOneDigitShown :
    (∀ bs ∈ payloads platform.th shownTrace, ∃ (pat : Byte) (j : Slot), bs = [pat, digitMask j]) ∧
    (observe platform shownTrace).shown = some (frameWord 0x89#8 0x08#8) := by
  refine ⟨fun bs h => ⟨0x89#8, 0#2, ?_⟩, by decide⟩
  have : bs = [0x89#8, 0x08#8] := by simpa [payloads, calls, platform, shownTrace] using h
  rw [this]
  decide

theorem witness_PseudoCommandsExpand : idleState.ReadyWith idleController ∧ Instr.wstr [] ∈ Pseudo.clear.expand := by
  decide

end Sys2Proof.Tests
end

/-! # The block's state: its invariant, and what each element's owner may change

The invariant of spec/10_state.md is shown for each operation that makes a state, then for a command's effect and for
a collaborator's answer, and from these for a step. The ownership rules R20, R25, R33 and R36 come from the same two
inversions, `Effect` and `Answered`. -/

namespace Sys2Proof.Machine

/-! ## The controller's invariant -/

theorem controller_wf_iff (c : Controller) :
    c.wf = true ↔ c.bb.wf = true ∧ oneHotMask c.mask = true ∧ c.phaseWf = true := by
  simp [Controller.wf, and_assoc]

theorem active_unique {s : State} {c c' : Controller} (h : s.life = .active c) (h' : s.life = .active c') : c = c' :=
  Life.active.inj (h.symm.trans h')

theorem phaseWf_of_idle {c : Controller} (h : c.phase = .idle) : c.phaseWf = true := by
  simp [Controller.phaseWf, h]

theorem waitsOn_of_idle {c : Controller} (h : c.phase = .idle) (us : Nat) (tr : List Event) :
    c.waitsOn us tr = true := by
  simp [Controller.waitsOn, h]

theorem waitsOn_of_getLast {c : Controller} {us : Nat} {tr : List Event} (h : tr.getLast? = c.pendingCall us) :
    c.waitsOn us tr = true := by
  unfold Controller.waitsOn
  split
  · rfl
  · simp [h]

/-! ## States that have the invariant -/

theorem inv_of_active {s : State} {c : Controller} (hl : s.life = .active c) (hcfg : s.cfg.wf = true)
    (hc : c.wf = true) (hw : s.fault = none → c.waitsOn s.cfg.delayUs s.trace = true) : s.Inv where
  cfg_wf := hcfg
  controller_wf c' h := by
    obtain rfl := active_unique hl h
    exact hc
  waits_on c' h := by
    obtain rfl := active_unique hl h
    exact hw

/-- Idle, a controller needs only its buffer and its mask in form. -/
theorem inv_of_idle {s : State} {c : Controller} (hl : s.life = .active c) (hcfg : s.cfg.wf = true)
    (hp : c.phase = .idle) (hbb : c.bb.wf = true) (hm : oneHotMask c.mask = true) : s.Inv :=
  inv_of_active hl hcfg ((controller_wf_iff c).mpr ⟨hbb, hm, phaseWf_of_idle hp⟩) fun _ => waitsOn_of_idle hp ..

/-- A state whose last event is the call it waits on. -/
theorem inv_of_pending {s : State} {c : Controller} (hl : s.life = .active c) (hcfg : s.cfg.wf = true)
    (hc : c.wf = true) (hlast : s.trace.getLast? = c.pendingCall s.cfg.delayUs) : s.Inv :=
  inv_of_active hl hcfg hc fun _ => waitsOn_of_getLast hlast

theorem inv_of_released {s : State} (hl : s.life = .released) (hcfg : s.cfg.wf = true) : s.Inv where
  cfg_wf := hcfg
  controller_wf c h := by simp [hl] at h
  waits_on c h := by simp [hl] at h

/-- The clause about the trace says nothing of a faulted state. -/
theorem inv_of_faulted {s t : State} {f : FaultMark} (h : s.Inv) (hl : t.life = s.life) (hcfg : t.cfg = s.cfg)
    (hf : t.fault = some f) : t.Inv where
  cfg_wf := hcfg ▸ h.cfg_wf
  controller_wf c hc := h.controller_wf c (hl ▸ hc)
  waits_on c _ hn := by simp [hf] at hn

/-- The clause about the trace says nothing of a state in Idle, so events may be added there. -/
theorem inv_of_idle_same_life {s t : State} (h : s.Inv) (hp : s.phase = .idle) (hl : t.life = s.life)
    (hcfg : t.cfg = s.cfg) : t.Inv where
  cfg_wf := hcfg ▸ h.cfg_wf
  controller_wf c hc := h.controller_wf c (hl ▸ hc)
  waits_on c hc _ := by
    have hpc : c.phase = .idle := by simpa [State.phase, Life.phase, ← hl, hc] using hp
    exact waitsOn_of_idle hpc ..

/-- The invariant does not speak of the bytes and events still to come. -/
theorem inv_with_input {s : State} (h : s.Inv) (rx : List Byte) (inbox : List EnvEvent) :
    ({ s with rx := rx, inbox := inbox } : State).Inv where
  cfg_wf := h.cfg_wf
  controller_wf := h.controller_wf
  waits_on := h.waits_on

/-! ## The operations keep the invariant -/

theorem inv_writeBuffer {s : State} {c : Controller} {m : Memory} (hcfg : s.cfg.wf = true) (hc : c.wf = true)
    (hp : c.phase = .idle) (hm : m.wf = true) : (s.writeBuffer c m).Inv := by
  obtain ⟨-, hmask, -⟩ := (controller_wf_iff c).mp hc
  exact inv_of_idle (writeBuffer_life s c m) hcfg hp hm hmask

theorem inv_beginRefresh {s : State} {c : Controller} {d : Option Handle} (hcfg : s.cfg.wf = true)
    (hc : c.wf = true) : (s.beginRefresh c d).Inv := by
  obtain ⟨hbb, -, -⟩ := (controller_wf_iff c).mp hc
  refine inv_of_pending (beginRefresh_life s c d) hcfg ?_ ?_
  · exact (controller_wf_iff _).mpr ⟨hbb, digitMask_oneHot c.cursor, rfl⟩
  · simp [Controller.pendingCall]

theorem inv_shiftPayload {s : State} {c : Controller} (hcfg : s.cfg.wf = true) (hc : c.wf = true) :
    (s.shiftPayload c).Inv := by
  obtain ⟨hbb, hm, -⟩ := (controller_wf_iff c).mp hc
  refine inv_of_pending (shiftPayload_life s c) hcfg ?_ ?_
  · exact (controller_wf_iff _).mpr ⟨hbb, hm, rfl⟩
  · simp [Controller.pendingCall]

theorem inv_raiseStrobe {s : State} {c : Controller} (hcfg : s.cfg.wf = true) (hc : c.wf = true) :
    (s.raiseStrobe c).Inv := by
  obtain ⟨hbb, hm, -⟩ := (controller_wf_iff c).mp hc
  refine inv_of_pending (raiseStrobe_life s c) hcfg ?_ ?_
  · exact (controller_wf_iff _).mpr ⟨hbb, hm, rfl⟩
  · simp [Controller.pendingCall]

/-- The pause begins with the line low, as the write left it (rule R134). -/
theorem inv_callDelay {s : State} {c : Controller} {d : Handle} (hcfg : s.cfg.wf = true) (hc : c.wf = true)
    (hp : c.phase = .waitWrite) (hd : c.dly = some d) :
    ((s.setController { c with phase := .waitDelay }).log (.call d (.delay s.cfg.delayUs))).Inv := by
  obtain ⟨hbb, hm, hlow⟩ := (controller_wf_iff c).mp hc
  replace hlow : c.strobe = .low := by simpa [Controller.phaseWf, hp] using hlow
  refine inv_of_pending (log_life ..) hcfg ?_ ?_
  · exact (controller_wf_iff _).mpr ⟨hbb, hm, by simp [Controller.phaseWf, hlow, hd]⟩
  · simp [Controller.pendingCall, hd]

theorem inv_endRefresh {s : State} {c : Controller} {g : Strobe} {r : Response} (hcfg : s.cfg.wf = true)
    (hc : c.wf = true) : (s.endRefresh c g r).Inv := by
  obtain ⟨hbb, -, -⟩ := (controller_wf_iff c).mp hc
  exact inv_of_idle (endRefresh_life s c g r) hcfg rfl hbb (digitMask_oneHot _)

/-! ## A command, an answer and a step keep the invariant -/

theorem effect_inv {s t : State} {i : Instr} (h : s.Inv) (he : Effect s i t) : t.Inv := by
  have hcfg := h.cfg_wf
  cases he with
  | encc c hp => exact inv_of_idle_same_life h hp rfl rfl
  | encd n p _ hp => exact inv_of_idle_same_life h hp rfl rfl
  | construct => exact inv_of_idle rfl hcfg rfl clearedMemory_wf (digitMask_oneHot _)
  | release => exact inv_of_released rfl hcfg
  | wchars _ _ _ _ c hl hp | wnum _ c hl hp =>
    have hc := h.controller_wf c hl
    obtain ⟨hbb, -, -⟩ := (controller_wf_iff c).mp hc
    exact inv_writeBuffer hcfg hc hp (writeSlots_wf _ _ hbb)
  | wstr text c hl hp => exact inv_writeBuffer hcfg (h.controller_wf c hl) hp (writeSlots_wf _ _ clearedMemory_wf)
  | refresh c hl | refreshd _ c hl => exact inv_beginRefresh hcfg (h.controller_wf c hl)

theorem exec_inv {s t : State} {i : Instr} (h : s.Inv) (hx : exec i s = .next t) : t.Inv := by
  obtain ⟨-, he | ⟨f, -, rfl⟩⟩ := exec_next hx
  · exact effect_inv h he
  · exact inv_of_faulted h rfl rfl (raise_fault ..)

theorem answered_inv {s t : State} {c : Controller} {a : Answer} (h : s.Inv) (hl : s.life = .active c)
    (ha : Answered s c a t) : t.Inv := by
  have hcfg := h.cfg_wf
  have hc := h.controller_wf c hl
  cases ha with
  | lowOk => exact inv_shiftPayload hcfg hc
  | writeOk => exact inv_raiseStrobe hcfg hc
  | writeOkDelay hp d hd => exact inv_callDelay (s := s.log (.ans .ok)) hcfg hc hp hd
  | delayOk => exact inv_raiseStrobe hcfg hc
  | lowErr | writeErr | highOk | highErr => exact inv_endRefresh hcfg hc

/-- Settles O52: by the inversion of `step`, a command, a byte, an answer or an idle step. -/
theorem everyStepKeepsInvariant : Obligations.EveryStepKeepsInvariant := by
  intro s t h hs
  obtain ⟨-, ⟨i, rest, -, hx⟩ | ⟨b, later, -, -, rfl⟩ | ⟨c, a, later, -, -, hl, ha⟩ | ⟨-, -, -, rfl⟩⟩ := step_next hs
  · exact exec_inv (inv_with_input h rest s.inbox) hx
  · exact inv_with_input h _ _
  · exact answered_inv (inv_with_input h s.rx later) hl ha
  · exact h

/-! ## The parameters (rule R36) -/

theorem exec_cfg {s t : State} {i : Instr} (h : exec i s = .next t) : t.cfg = s.cfg := by
  obtain ⟨-, he | ⟨f, -, rfl⟩⟩ := exec_next h
  · cases he <;> rfl
  · rfl

theorem answered_cfg {s t : State} {c : Controller} {a : Answer} (h : Answered s c a t) : t.cfg = s.cfg := by
  cases h <;> rfl

/-- Settles O50: neither a command nor an answer has the parameters among what it writes. -/
theorem parametersAreConstant : Obligations.ParametersAreConstant := by
  intro s t hs
  obtain ⟨-, ⟨i, rest, -, hx⟩ | ⟨b, later, -, -, rfl⟩ | ⟨c, a, later, -, -, -, ha⟩ | ⟨-, -, -, rfl⟩⟩ := step_next hs
  · exact (exec_cfg hx :)
  · rfl
  · exact (answered_cfg ha :)
  · rfl

/-! ## Who changes a living controller (rules R20, R25) -/

/-- An answer moves the refresh on; the handles, the buffer and the cursor it leaves. -/
theorem answered_controller {s t : State} {c : Controller} {a : Answer} (h : Answered s c a t) :
    ∃ c', t.life = .active c' ∧ c'.th = c.th ∧ c'.sh = c.sh ∧ c'.bb = c.bb ∧ c'.cursor = c.cursor := by
  cases h <;> exact ⟨_, rfl, rfl, rfl, rfl, rfl⟩

/-- Of the commands that leave a controller only the buffer writes change its buffer and only the refreshes its
cursor. -/
theorem effect_controller {s t : State} {i : Instr} {c c' : Controller} (he : Effect s i t)
    (hl : s.life = .active c) (hl' : t.life = .active c') :
    (i.isBufferWrite = false → c'.bb = c.bb) ∧ (i.isRefresh = false → c'.cursor = c.cursor) := by
  cases he with
  | encc | encd =>
    obtain rfl := active_unique hl hl'
    exact ⟨fun _ => rfl, fun _ => rfl⟩
  | construct t sh hn => simp [State.NoController, hl] at hn
  | release => cases hl'
  | wchars _ _ _ _ d hd | wstr _ d hd | wnum _ d hd =>
    obtain rfl := active_unique hl hd
    cases hl'
    exact ⟨nofun, fun _ => rfl⟩
  | refresh d hd | refreshd _ d hd =>
    obtain rfl := active_unique hl hd
    cases hl'
    exact ⟨fun _ => rfl, nofun⟩

/-- While a controller lives, a step changes its buffer or its cursor only by a command's effect. -/
theorem step_controller {s t : State} {c c' : Controller} (hl : s.life = .active c) (hs : step s = .next t)
    (hl' : t.life = .active c') :
    (∃ i rest, decode s.rx = .command i rest ∧ Effect { s with rx := rest } i t) ∨
      (c'.bb = c.bb ∧ c'.cursor = c.cursor) := by
  obtain ⟨-, ⟨i, rest, hd, hx⟩ | ⟨b, later, -, -, rfl⟩ | ⟨d, a, later, -, -, hd, ha⟩ | ⟨-, -, -, rfl⟩⟩ := step_next hs
  · obtain ⟨-, he | ⟨f, -, rfl⟩⟩ := exec_next hx
    · exact .inl ⟨i, rest, hd, he⟩
    · obtain rfl := active_unique hl hl'
      exact .inr ⟨rfl, rfl⟩
  · obtain rfl := active_unique hl hl'
    exact .inr ⟨rfl, rfl⟩
  · obtain rfl := active_unique hl hd
    obtain ⟨e, he, -, -, hbb, hcur⟩ := answered_controller ha
    obtain rfl := active_unique he hl'
    exact .inr ⟨hbb, hcur⟩
  · obtain rfl := active_unique hl hl'
    exact .inr ⟨rfl, rfl⟩

/-- Settles O28: the step is a command that is no buffer write, or leaves the buffer by `step_controller`. -/
theorem onlyWritesChangeBuffer : Obligations.OnlyWritesChangeBuffer := by
  intro s t c c' hl hs hl' hno a
  obtain ⟨i, rest, hd, he⟩ | ⟨hbb, -⟩ := step_controller hl hs hl'
  · rw [(effect_controller he hl hl').1 (hno i rest hd)]
  · rw [hbb]

/-- Settles O37: the step is a command that is no refresh, or leaves the cursor by `step_controller`. -/
theorem onlyRefreshMovesCursor : Obligations.OnlyRefreshMovesCursor := by
  intro s t c c' hl hs hl' hno
  obtain ⟨i, rest, hd, he⟩ | ⟨-, hcur⟩ := step_controller hl hs hl'
  · exact (effect_controller he hl hl').2 (hno i rest hd)
  · exact hcur

/-! ## The calls of a step (rules R33, R132, R136, R142) -/

@[simp] theorem calls_append (tr tr' : List Event) : calls (tr ++ tr') = calls tr ++ calls tr' :=
  List.filterMap_append

@[simp] theorem calls_nil : calls [] = [] := rfl
@[simp] theorem calls_cmd (i : Instr) (tr : List Event) : calls (.cmd i :: tr) = calls tr := rfl
@[simp] theorem calls_call (h : Handle) (k : Call) (tr : List Event) :
    calls (.call h k :: tr) = (h, k) :: calls tr := rfl
@[simp] theorem calls_ans (a : Answer) (tr : List Event) : calls (.ans a :: tr) = calls tr := rfl
@[simp] theorem calls_resp (r : Response) (tr : List Event) : calls (.resp r :: tr) = calls tr := rfl

/-- A command's one possible call is that of a refresh, to the strobe output. -/
theorem effect_calls {s t : State} {i : Instr} (h : Effect s i t) :
    calls t.trace = calls s.trace ∨
      ∃ c, s.life = .active c ∧ calls t.trace = calls s.trace ++ [(c.sh, .strobeLow)] := by
  cases h with
  | refresh c hl | refreshd d c hl => exact .inr ⟨c, hl, by simp⟩
  | encc | encd | construct | release | wchars | wstr | wnum => exact .inl (by simp)

theorem exec_calls {s t : State} {i : Instr} (h : exec i s = .next t) :
    calls t.trace = calls s.trace ∨
      ∃ c, s.life = .active c ∧ calls t.trace = calls s.trace ++ [(c.sh, .strobeLow)] := by
  obtain ⟨-, he | ⟨f, -, rfl⟩⟩ := exec_next h
  · exact effect_calls he
  · exact .inl (by simp)

/-- The one call that an answer can lead to. -/
theorem answered_calls {s t : State} {c : Controller} {a : Answer} (ha : Answered s c a t) :
    calls t.trace = calls s.trace ∨
      ∃ h k, calls t.trace = calls s.trace ++ [(h, k)] ∧
        ((k = .strobeHigh ∧ h = c.sh) ∨ (k = .transportWrite [c.pat, c.mask] ∧ h = c.th) ∨
          (k = .delay s.cfg.delayUs ∧ c.dly = some h)) := by
  cases ha with
  | lowOk => exact .inr ⟨c.th, .transportWrite [c.pat, c.mask], by simp, .inr (.inl ⟨rfl, rfl⟩)⟩
  | writeOkDelay hp d hd => exact .inr ⟨d, .delay s.cfg.delayUs, by simp, .inr (.inr ⟨rfl, hd⟩)⟩
  | writeOk | delayOk => exact .inr ⟨c.sh, .strobeHigh, by simp, .inl ⟨rfl, rfl⟩⟩
  | lowErr | writeErr | highOk | highErr => exact .inl (by simp)

/-- Settles O42: by the calls of a command and of an answer; the mask is one-hot by the invariant. -/
theorem callsGoToTheirOwners : Obligations.CallsGoToTheirOwners := by
  intro s t h hs
  obtain ⟨-, ⟨i, rest, -, hx⟩ | ⟨b, later, -, -, rfl⟩ | ⟨c, a, later, -, -, hl, ha⟩ | ⟨-, -, -, rfl⟩⟩ := step_next hs
  · obtain hsame | ⟨c, hl, hcall⟩ := exec_calls hx
    · exact .inl hsame
    · exact .inr ⟨c, c.sh, .strobeLow, hl, hcall, .inl ⟨rfl, rfl⟩⟩
  · exact .inl rfl
  · obtain ⟨-, hmask, -⟩ := (controller_wf_iff c).mp (h.controller_wf c hl)
    obtain hsame | ⟨d, k, hcall, hhigh | ⟨hk, hd⟩ | hdelay⟩ := answered_calls ha
    · exact .inl hsame
    · exact .inr ⟨c, d, k, hl, hcall, .inr (.inl hhigh)⟩
    · exact .inr ⟨c, d, k, hl, hcall, .inr (.inr (.inl ⟨hk, hmask, hd⟩))⟩
    · exact .inr ⟨c, d, k, hl, hcall, .inr (.inr (.inr hdelay))⟩
  · exact .inl rfl

/-! ## The end of a refresh (rules R134, R138) -/

/-- With no complete frame in the command port, the answer that comes next is the step. -/
theorem step_receives {s : State} {c : Controller} {a : Answer} {later : List EnvEvent}
    (h : s.Receives c a later) : step s = answerRefresh a c { s with inbox := later } := by
  obtain ⟨hf, hl, hd, hi⟩ := h
  simp [step, hf, hd, nextEvent, hi, receiveAnswer, hl]

/-- The state in which an answer's refresh ends, written out. -/
theorem endRefresh_eq (s : State) (c : Controller) (a : Answer) (g : Strobe) (r : Response) :
    (s.log (.ans a)).endRefresh c g r =
      { s with
        life := .active (Controller.unspecifyPayload { c with strobe := g, phase := .idle } s.draws)
        trace := s.trace ++ [.ans a, .resp r]
        draws := s.draws + 1 } := by
  simp [State.endRefresh, State.setIdleController, State.respond, State.log]

/-- Settles O33: each ending row of R134 is `endRefresh`, with free values drawn for the payload. -/
theorem answersEndRefresh : Obligations.AnswersEndRefresh := by
  intro s c later ends
  have ends_of {a g r} (h : s.Receives c a later)
      (hrow : answerRefresh a c { s with inbox := later } =
        .next ((State.log { s with inbox := later } (.ans a)).endRefresh c g r)) : ends a g r :=
    ⟨_, _, _, by rw [step_receives h, hrow, endRefresh_eq]; rfl⟩
  refine ⟨?lowErr, ?writeErr, ?highOk, ?highErr⟩
  case highOk => exact fun h hp => ends_of h (by simp [answerRefresh, hp])
  all_goals exact fun e h hp => ends_of h (by simp [answerRefresh, hp])

/-! ## The fault mark (rules R35, R152) -/

theorem step_faulted {s : State} {f : FaultMark} (h : s.fault = some f) : step s = .fault (.stopped f) := by
  simp [step, h]

/-- Settles O46: `step` and every command look at the fault mark first. -/
theorem faultIsSticky : Obligations.FaultIsSticky := by
  refine ⟨rfl, fun s f h => ⟨step_faulted h, exec_faulted h, ?_⟩⟩
  simp [State.final, h]

end Sys2Proof.Machine

/-! # The spaces the block writes: the back buffer, the event trace, the serial wire

The rules of spec/20_memory.md. A buffer write is shown to be one `writeBuffer` of the memory `writtenBuffer` names; a
command and an answer each extend the trace; a byte shifted into the chain of 16 stages moves the near register's byte
to the far one. -/

namespace Sys2Proof.Machine

/-! ## The buffer writes (rule R52) -/

/-- The back buffer that a buffer write makes of the buffer `m` (spec/42_buffer_writes.md rules R113, R117, R121);
`exec_bufferWrite` ties it to `exec`. -/
def writtenBuffer (cfg : Config) (i : Instr) (m : Memory) : Memory :=
  match i with
  | .wchars w0 w1 w2 w3 => writeSlots m 0#2 ([w0, w1, w2, w3].map (encodeChar cfg))
  | .wstr text => writeSlots clearedMemory 0#2 ((text.take 4).map (encodeChar cfg))
  | .wnum n => writeSlots m 0#2 ((decimalDigits (clamp cfg.numSigned n)).map cfg.digit)
  | _ => m

/-- On a ready controller a buffer write completes, and all it does is write its buffer. -/
theorem exec_bufferWrite {s : State} {c : Controller} {i : Instr} (h : s.ReadyWith c)
    (hi : i.isBufferWrite = true) :
    exec i s = .next ((s.log (.cmd i)).writeBuffer c (writtenBuffer s.cfg i c.bb)) := by
  cases i with
  | wchars | wstr | wnum => exact controllerCommand_ready h _ _
  | encc | encd | construct | release | refresh | refreshd | illegalZero | illegalHigh => cases hi

/-- The controller is ready again after a buffer write. -/
theorem writeBuffer_readyWith {s : State} {c : Controller} (h : s.ReadyWith c) (i : Instr) (m : Memory) :
    ((s.log (.cmd i)).writeBuffer c m).ReadyWith { c with bb := m } :=
  let ⟨hf, _, hp⟩ := h
  ⟨hf, rfl, hp⟩

/-- Writing the same patterns again changes no slot: each slot holds its pattern of the list, or was not written. -/
theorem readSlot_writeSlots_twice (m : Memory) {ps : List Byte} (h : ps.length ≤ 4) (j : Slot) :
    readSlot (writeSlots (writeSlots m 0#2 ps) 0#2 ps) j = readSlot (writeSlots m 0#2 ps) j := by
  simp only [readSlot_writeSlots _ ps h, List.getD_eq_getElem?_getD]
  cases ps[j.toNat]? <;> rfl

theorem readSlot_writtenBuffer_twice (cfg : Config) (i : Instr) (m : Memory) (j : Slot) :
    readSlot (writtenBuffer cfg i (writtenBuffer cfg i m)) j = readSlot (writtenBuffer cfg i m) j := by
  cases i with
  | wchars | wnum => exact readSlot_writeSlots_twice m (by simp [decimalDigits]) j
  | wstr => rfl
  | encc | encd | construct | release | refresh | refreshd | illegalZero | illegalHigh => rfl

/-- Settles O27: both commands complete by `exec_bufferWrite`, and the second writes the same patterns over the
first's. -/
theorem bufferWritesAreIdempotent : Obligations.BufferWritesAreIdempotent := by
  intro s t i c c' h hi hx hl
  obtain rfl := Host.Outcome.next.inj ((exec_bufferWrite h hi).symm.trans hx)
  obtain rfl := active_unique (writeBuffer_life ..) hl
  exact ⟨_, _, exec_bufferWrite (writeBuffer_readyWith h ..) hi, rfl, readSlot_writtenBuffer_twice s.cfg i c.bb⟩

/-! ## The event trace (rule R50) -/

theorem effect_trace {s t : State} {i : Instr} (h : Effect s i t) : s.trace ++ [.cmd i] <+: t.trace := by
  cases h <;> exact List.prefix_append ..

/-- A command's own event comes first among those it adds, a model fault's too. -/
theorem exec_trace {s t : State} {i : Instr} (h : exec i s = .next t) : s.trace ++ [.cmd i] <+: t.trace := by
  obtain ⟨-, he | ⟨f, -, rfl⟩⟩ := exec_next h
  · exact effect_trace he
  · exact List.prefix_rfl

/-- An answer is the first event of the step that receives it. -/
theorem answered_trace {s t : State} {c : Controller} {a : Answer} (h : Answered s c a t) :
    s.trace ++ [.ans a] <+: t.trace := by
  cases h <;> exact List.prefix_append ..

theorem step_trace {s t : State} (h : step s = .next t) : s.trace <+: t.trace := by
  obtain ⟨-, ⟨i, rest, -, hx⟩ | ⟨b, later, -, -, rfl⟩ | ⟨c, a, later, -, -, -, ha⟩ | ⟨-, -, -, rfl⟩⟩ := step_next h
  · exact (List.prefix_append ..).trans (exec_trace hx :)
  · exact List.prefix_rfl
  · exact (List.prefix_append ..).trans (answered_trace ha :)
  · exact List.prefix_rfl

/-- Settles O49: the trace after a step begins with the trace before it. -/
theorem traceOnlyGrows : Obligations.TraceOnlyGrows := by
  intro s t hs
  obtain ⟨events, he⟩ := step_trace hs
  exact ⟨events, he.symm⟩

/-! ## The serial wire (rules R47, R66, D22) -/

@[simp] theorem farRegister_frameWord (pat mask : Byte) : farRegister (frameWord pat mask) = pat :=
  BitVec.extractLsb'_append_eq_left

@[simp] theorem nearRegister_frameWord (pat mask : Byte) : nearRegister (frameWord pat mask) = mask :=
  BitVec.extractLsb'_append_eq_right

theorem shiftAll_append (chain : BitVec 16) (bits bits' : List Bool) :
    shiftAll chain (bits ++ bits') = shiftAll (shiftAll chain bits) bits' :=
  List.foldl_append

/-- The stage nearest the transport takes the bit. -/
theorem getLsbD_shiftIn_zero (chain : BitVec 16) (b : Bool) : (shiftIn chain b).getLsbD 0 = b := by
  simp [shiftIn]

/-- Every other stage takes the bit of the stage before it. -/
theorem getLsbD_shiftIn_succ (chain : BitVec 16) (b : Bool) {k : Nat} (hk : k + 1 < 16) :
    (shiftIn chain b).getLsbD (k + 1) = chain.getLsbD k := by
  have : k < 16 := by omega
  simp [shiftIn, hk, this]

/-- Stage `k` holds the bit shifted in `k` bits before the last, or, where so many have not been shifted, what the
chain held `bits.length` stages nearer. -/
theorem getLsbD_shiftAll (chain : BitVec 16) (bits : List Bool) {k : Nat} (hk : k < 16) :
    (shiftAll chain bits).getLsbD k = bits.reverse.getD k (chain.getLsbD (k - bits.length)) := by
  induction bits using List.reverseRecOn generalizing k with
  | nil => rfl
  | append_singleton bits b ih =>
    rw [shiftAll_append, List.reverse_concat, List.length_append]
    cases k with
    | zero => exact getLsbD_shiftIn_zero ..
    | succ k =>
      rw [List.getD_cons_succ, List.length_singleton, Nat.add_sub_add_right, ← ih (by omega)]
      exact getLsbD_shiftIn_succ _ b hk

/-- The eight bits of a byte move the near register's byte to the far register and leave the byte in the near one. -/
theorem shiftAll_byteBits (chain : BitVec 16) (b : Byte) :
    shiftAll chain (byteBits b) = frameWord (nearRegister chain) b := by
  have hbits : (byteBits b).reverse = (List.range 8).map b.getLsbD := rfl
  have hlen : (byteBits b).length = 8 := rfl
  refine BitVec.eq_of_getLsbD_eq fun k hk => ?_
  rw [getLsbD_shiftAll chain _ hk, hbits, hlen, frameWord, BitVec.getLsbD_append]
  by_cases hnear : k < 8
  · simp [hnear]
  · have : k - 8 < 8 := by omega
    simp [hnear, nearRegister, this]

/-- The two bytes of a refresh fill the chain, whatever it held. -/
theorem shiftAll_wireBits (chain : BitVec 16) (pat mask : Byte) :
    shiftAll chain (wireBits [pat, mask]) = frameWord pat mask := by
  have hwire : wireBits [pat, mask] = byteBits pat ++ byteBits mask := rfl
  rw [hwire, shiftAll_append, shiftAll_byteBits, shiftAll_byteBits, nearRegister_frameWord]

/-- Settles O53: the order of the bits by computation, the frame's halves as the chain's two registers, and the chain
byte by byte. -/
theorem wireOrderFillsChain : Obligations.WireOrderFillsChain := fun pat mask =>
  ⟨rfl, farRegister_frameWord pat mask, nearRegister_frameWord pat mask,
    fun chain => shiftAll_wireBits chain pat mask⟩

end Sys2Proof.Machine

/-! # The command frames

The rules R71 to R79 of spec/30_encoding.md. The decoder is described from both sides: `decode_encode` runs it on the
frame of each command, and `decode_reads` says once, for any byte string, what it can answer. The rest follows from
these two and from the length that a frame's first bytes announce. -/

namespace Sys2Proof

/-! ## The operand formats read back (rules R71, R73) -/

theorem decodeOne_append (k : Word → Instr) (w : Word) (rest : List Byte) :
    decodeOne k (wordBytes w ++ rest) = .command (k w) rest := by
  simp [decodeOne]

theorem decodeTwo_append (k : Word → Word → Instr) (w0 w1 : Word) (rest : List Byte) :
    decodeTwo k ([w0, w1].flatMap wordBytes ++ rest) = .command (k w0 w1) rest := by
  have h : readWords 2 ([w0, w1].flatMap wordBytes ++ rest) = some ([w0, w1], rest) :=
    readWords_append [w0, w1] rest
  simp only [decodeTwo, h]

theorem decodeFour_append (k : Word → Word → Word → Word → Instr) (w0 w1 w2 w3 : Word) (rest : List Byte) :
    decodeFour k ([w0, w1, w2, w3].flatMap wordBytes ++ rest) = .command (k w0 w1 w2 w3) rest := by
  have h : readWords 4 ([w0, w1, w2, w3].flatMap wordBytes ++ rest) = some ([w0, w1, w2, w3], rest) :=
    readWords_append [w0, w1, w2, w3] rest
  simp only [decodeFour, h]

theorem decodeText_append {len : Word} {text : List Word} (h : text.length = len.toNat) (rest : List Byte) :
    decodeText (wordBytes len ++ (text.flatMap wordBytes ++ rest)) = .command (.wstr text) rest := by
  have hge : ¬ (text.flatMap wordBytes ++ rest).length < 4 * text.length := by
    rw [List.length_append, flatMap_wordBytes_length]
    omega
  simp only [decodeText, readWord_append, ← h, hge, if_false, readWords_append]

/-! ## The decoder on a frame -/

theorem ne_of_wf_illegalHigh {op : Byte} (h : (Instr.illegalHigh op).wf = true) {k : Nat} (hk : k < 10) :
    op ≠ BitVec.ofNat 8 k := by
  rintro rfl
  have : 0x0A ≤ k % 2 ^ 8 := by simpa [Instr.wf] using h
  omega

theorem decode_illegalHigh {op : Byte} (h : (Instr.illegalHigh op).wf = true) (rest : List Byte) :
    decode (op :: rest) = .command (.illegalHigh op) rest := by
  have hne {k : Nat} (hk : k < 10) := ne_of_wf_illegalHigh h hk
  simp [decode, hne (k := 0), hne (k := 1), hne (k := 2), hne (k := 3), hne (k := 4), hne (k := 5), hne (k := 6),
    hne (k := 7), hne (k := 8), hne (k := 9)]

/-- A command's frame is decoded to it, whatever follows: its opcode selects its format. -/
theorem decode_encode {i : Instr} (h : i.wf = true) (rest : List Byte) :
    decode (encode i ++ rest) = .command i rest := by
  cases i with
  | encc c => exact decodeOne_append .encc c rest
  | encd n => exact decodeOne_append .encd n rest
  | construct t s => exact decodeTwo_append .construct t s rest
  | wchars a b c d => exact decodeFour_append .wchars a b c d rest
  | wstr text =>
    have hl : text.length < 2 ^ 32 := by simpa [Instr.wf] using h
    exact decodeText_append (by rw [BitVec.toNat_ofNat, Nat.mod_eq_of_lt hl]) rest
  | wnum n => exact decodeOne_append .wnum n rest
  | refreshd d => exact decodeOne_append .refreshd d rest
  | release | refresh | illegalZero => rfl
  | illegalHigh op => exact decode_illegalHigh h rest

/-- Settles O1, by `decode_encode`. -/
theorem decodeReadsBackEncode : Obligations.DecodeReadsBackEncode := fun _ rest h => decode_encode h rest

/-! ## The decoder on any byte string (rules R74, R76) -/

/-- The string is shorter than the length its first bytes announce, if they announce one. -/
def IsShort (bs : List Byte) : Prop := ∀ n, frameLength bs = some n → bs.length < n

theorem isShort_of_none {bs : List Byte} (h : frameLength bs = none) : IsShort bs := fun n hn => by simp [h] at hn

theorem isShort_of_lt {bs : List Byte} {n : Nat} (hn : frameLength bs = some n) (h : bs.length < n) : IsShort bs :=
  fun m hm => by rwa [← Option.some.inj (hn.symm.trans hm)]

/-- What the decoder may answer for a byte string: the command whose frame the string begins with, or `incomplete` for
a string that ends before its frame does. -/
inductive Reads (bs : List Byte) : Decoded → Prop where
  | whole (i : Instr) (rest : List Byte) (hwf : i.wf = true) (hbs : encode i ++ rest = bs) :
      Reads bs (.command i rest)
  | short (h : IsShort bs) : Reads bs .incomplete

/-- A frame of one operand word. -/
theorem decodeOne_reads {op : Byte} {k : Word → Instr} (hwf : ∀ w, (k w).wf = true)
    (hframe : ∀ w, encode (k w) = op :: wordBytes w) (hlen : ∀ bs, frameLength (op :: bs) = some 5)
    (bs : List Byte) : Reads (op :: bs) (decodeOne k bs) := by
  cases hr : readWord bs with
  | none =>
    have := readWord_none.mp hr
    simp only [decodeOne, hr]
    exact .short (isShort_of_lt (hlen bs) (by rw [List.length_cons]; omega))
  | some p =>
    obtain ⟨w, rest⟩ := p
    obtain rfl := readWord_some hr
    rw [decodeOne_append]
    exact .whole _ _ (hwf w) (by rw [hframe, List.cons_append])

/-- CONSTRUCT's frame. -/
theorem decodeTwo_reads (bs : List Byte) : Reads (0x03#8 :: bs) (decodeTwo .construct bs) := by
  cases hr : readWords 2 bs with
  | none =>
    have := readWords_none.mp hr
    simp only [decodeTwo, hr]
    exact .short (isShort_of_lt (n := 9) rfl (by rw [List.length_cons]; omega))
  | some p =>
    obtain ⟨ws, rest⟩ := p
    obtain ⟨hl, rfl⟩ := readWords_some hr
    obtain ⟨w0, w1, rfl⟩ := List.length_eq_two.mp hl
    rw [decodeTwo_append]
    exact .whole _ _ rfl rfl

/-- WCHARS's frame. -/
theorem decodeFour_reads (bs : List Byte) : Reads (0x05#8 :: bs) (decodeFour .wchars bs) := by
  cases hr : readWords 4 bs with
  | none =>
    have := readWords_none.mp hr
    simp only [decodeFour, hr]
    exact .short (isShort_of_lt (n := 17) rfl (by rw [List.length_cons]; omega))
  | some p =>
    obtain ⟨ws, rest⟩ := p
    obtain ⟨hl, rfl⟩ := readWords_some hr
    match ws, hl with
    | [w0, w1, w2, w3], _ =>
      rw [decodeFour_append]
      exact .whole _ _ rfl rfl

/-- WSTR's frame: short of its word `L`, short of the `L` words, or whole. -/
theorem decodeText_reads (bs : List Byte) : Reads (0x06#8 :: bs) (decodeText bs) := by
  cases hr : readWord bs with
  | none =>
    simp only [decodeText, hr]
    exact .short (isShort_of_none (by simp [frameLength, hr]))
  | some p =>
    obtain ⟨len, rest⟩ := p
    obtain rfl := readWord_some hr
    cases hws : readWords len.toNat rest with
    | none =>
      have hlt := readWords_none.mp hws
      simp only [decodeText, hr, hlt, if_true]
      refine .short (isShort_of_lt (n := 5 + 4 * len.toNat) (by simp [frameLength]) ?_)
      rw [List.length_cons, List.length_append, wordBytes_length]
      omega
    | some q =>
      obtain ⟨text, rest'⟩ := q
      obtain ⟨hl, rfl⟩ := readWords_some hws
      rw [decodeText_append hl]
      refine .whole (.wstr text) rest' (decide_eq_true (by rw [hl]; exact len.isLt)) ?_
      simp [encode, Instr.opcode, Instr.operandWords, hl]

theorem decode_reads (bs : List Byte) : Reads bs (decode bs) := by
  cases bs with
  | nil => exact .short (isShort_of_none rfl)
  | cons op bs =>
    simp only [decode]
    split_ifs with h1 h2 h3 h4 h5 h6 h7 h8 h9 h0
    · subst h1; exact decodeOne_reads (fun _ => rfl) (fun _ => rfl) (fun _ => rfl) bs
    · subst h2; exact decodeOne_reads (fun _ => rfl) (fun _ => rfl) (fun _ => rfl) bs
    · subst h3; exact decodeTwo_reads bs
    · subst h4; exact .whole .release bs rfl rfl
    · subst h5; exact decodeFour_reads bs
    · subst h6; exact decodeText_reads bs
    · subst h7; exact decodeOne_reads (fun _ => rfl) (fun _ => rfl) (fun _ => rfl) bs
    · subst h8; exact .whole .refresh bs rfl rfl
    · subst h9; exact decodeOne_reads (fun _ => rfl) (fun _ => rfl) (fun _ => rfl) bs
    · subst h0; exact .whole .illegalZero bs rfl rfl
    · have : 0x0A ≤ op.toNat := by bv_omega
      exact .whole (.illegalHigh op) bs (by simpa [Instr.wf] using this) rfl

theorem decode_command {bs rest : List Byte} {i : Instr} (h : decode bs = .command i rest) :
    i.wf = true ∧ encode i ++ rest = bs := by
  cases h ▸ decode_reads bs with
  | whole _ _ hwf hbs => exact ⟨hwf, hbs⟩

/-- Settles O2: of the two answers in `decode_reads`, a command comes from its whole frame. -/
theorem decodedBytesAreTheFrame : Obligations.DecodedBytesAreTheFrame := fun _ _ _ => decode_command

/-! ## The length of a frame (rule R74) -/

/-- A frame's first bytes announce its length. -/
theorem frameLength_encode {i : Instr} (h : i.wf = true) (rest : List Byte) :
    frameLength (encode i ++ rest) = some (encode i).length := by
  cases i with
  | wstr text => exact Laws.EncodingShape.wstr text h rest
  | illegalHigh op => exact Laws.EncodingShape.illegalHigh op h rest
  | encc | encd | construct | release | wchars | wnum | refresh | refreshd | illegalZero => rfl

/-- The decoder rejects exactly the strings that are short of their announced length. -/
theorem decode_incomplete_iff {bs : List Byte} :
    decode bs = .incomplete ↔ IsShort bs := by
  refine ⟨fun h => ?_, fun h => ?_⟩
  · cases h ▸ decode_reads bs with
    | short hs => exact hs
  · cases hd : decode bs with
    | incomplete => rfl
    | command i rest =>
      obtain ⟨hwf, rfl⟩ := decode_command hd
      have := h _ (frameLength_encode hwf rest)
      simp at this

/-- A string that holds its frame is a command, followed by what the frame leaves over. -/
theorem decode_of_frameLength_le {bs : List Byte} {n : Nat} (hn : frameLength bs = some n) (hle : n ≤ bs.length) :
    ∃ i, decode bs = .command i (bs.drop n) := by
  cases hd : decode bs with
  | incomplete => exact absurd (decode_incomplete_iff.mp hd n hn) (by omega)
  | command i rest =>
    obtain ⟨hwf, rfl⟩ := decode_command hd
    obtain rfl := Option.some.inj ((frameLength_encode hwf rest).symm.trans hn)
    exact ⟨i, by rw [List.drop_left]⟩

/-- Without WSTR's opcode the first byte alone decides. -/
theorem frameLength_cons_of_ne {op : Byte} (h : op ≠ 0x06#8) (r r' : List Byte) :
    frameLength (op :: r) = frameLength (op :: r') := by
  simp [frameLength, h]

end Sys2Proof

namespace Sys2Proof.Machine

/-! ## The step that receives a byte and the step that issues a command (rules R74, R76) -/

theorem step_of_command {s : State} {i : Instr} {rest : List Byte} (hf : s.fault = none)
    (hd : decode s.rx = .command i rest) : step s = exec i { s with rx := rest } := by
  simp [step, hf, hd]

theorem step_of_byte {s : State} {b : Byte} {later : List EnvEvent} (hf : s.fault = none)
    (hd : decode s.rx = .incomplete) (hi : s.inbox = .byte b :: later) :
    step s = .next { s with rx := s.rx ++ [b], inbox := later } := by
  simp [step, hf, hd, nextEvent, hi]

/-- Settles O3: the lengths from `frameLength`'s own branches, the decoder by `decode_incomplete_iff`, and the byte that
arrives by `step_of_byte`. -/
theorem frameLengthFoundAtFront : Obligations.FrameLengthFoundAtFront := by
  refine ⟨fun op r r' h => frameLength_cons_of_ne h r r', fun _ _ _ _ _ => rfl, fun bs h => ?none,
    fun bs n hn h => ?short, fun bs n => decode_of_frameLength_le, fun s b later => step_of_byte⟩
  case none => exact decode_incomplete_iff.mpr (isShort_of_none h)
  case short => exact decode_incomplete_iff.mpr (isShort_of_lt hn h)

/-- Settles O7, by `step_of_command`. -/
theorem stepRunsTheDecodedCommand : Obligations.StepRunsTheDecodedCommand := fun _ _ _ => step_of_command

/-! ## The reserved rows (rules R75, R154) -/

/-- A reserved command records itself in the trace and the mark in `fault`, and does nothing else. -/
theorem illegalCommand_unfaulted {s : State} (h : s.fault = none) (i : Instr) :
    illegalCommand i s =
      .next { s with fault := some (.illegalCommand i.opcode), trace := s.trace ++ [.cmd i] } :=
  issue_unfaulted h i _

/-- Settles O5: both rows are `illegalCommand`. -/
theorem reservedRowsComplete : Obligations.ReservedRowsComplete := fun _ h =>
  ⟨illegalCommand_unfaulted h .illegalZero, fun op => illegalCommand_unfaulted h (.illegalHigh op)⟩

/-! ## Frames of the test vectors -/

/-- Settles O6: each string but the fifth is a command's frame with the bytes after it; the fifth is short of WNUM's
five bytes. -/
theorem specFramesDecode : Obligations.SpecFramesDecode :=
  ⟨decode_encode (i := .encc 0x2D#32) rfl [], decode_encode (i := .encd 9#32) rfl [],
    decode_encode (i := .construct 1#32 2#32) rfl [0x05#8], decode_encode (i := .illegalHigh 0xFF#8) rfl [0x08#8],
    decode_incomplete_iff.mpr (isShort_of_lt (n := 5) rfl (by decide)), decode_encode (i := .wstr []) rfl [0x08#8]⟩

/-! ## The fixed patterns (rules R63, R67) -/

/-- An unmapped code is outside every class's range. -/
theorem classify_eq_other_iff {c : Word} :
    classify c = .other ↔
      ¬ (0x30 ≤ c.toNat ∧ c.toNat ≤ 0x39) ∧ ¬ (0x41 ≤ c.toNat ∧ c.toNat ≤ 0x5A) ∧
      ¬ (0x61 ≤ c.toNat ∧ c.toNat ≤ 0x7A) ∧ c.toNat ≠ 0x20 ∧ c.toNat ≠ 0x2D ∧ c.toNat ≠ 0x5F := by
  unfold classify
  split_ifs <;> simp_all

/-- Neither a digit nor changed by folding the case, an unmapped code falls to the last line of the lookup. -/
theorem encodeChar_of_other (cfg : Config) {c : Word} (h : classify c = .other) : encodeChar cfg c = blank := by
  obtain ⟨hdigit, hupper, hlower, -, hminus, hunder⟩ := classify_eq_other_iff.mp h
  have hm : c ≠ 0x2D#32 := fun e => hminus (by rw [e]; rfl)
  have hu : c ≠ 0x5F#32 := fun e => hunder (by rw [e]; rfl)
  rw [encodeChar, dif_neg hdigit, normalise, if_neg hlower, encodeNormalised, dif_neg hupper, if_neg hm, if_neg hu,
    ite_self]

/-- Settles O14: the segments by enumeration, space by its line of the lookup. -/
theorem fixedPatternsLight : Obligations.FixedPatternsLight := by
  refine ⟨rfl, rfl, rfl, fun x => by cases x <;> decide, fun cfg c h => ?_⟩
  rcases h with rfl | h
  · rfl
  · exact encodeChar_of_other cfg h

/-! ## The digit masks (rule R65) -/

/-- One shifted left by `k` has exactly bit `k` set. -/
theorem getLsbD_one_shiftLeft {k : Nat} (hk : k < 8) (j : Nat) : (1#8 <<< k).getLsbD j = decide (j = k) :=
  (BitVec.getLsbD_twoPow k j).trans (by simp [hk, eq_comm])

/-- Settles O29: the mask of cursor `c` is 1 shifted by `3 - c`. -/
theorem digitMasksAreOneHot : Obligations.DigitMasksAreOneHot :=
  ⟨rfl, rfl, rfl, rfl, fun c => ⟨3 - c.toNat, by omega, rfl, getLsbD_one_shiftLeft (by omega)⟩⟩

/-! ## Response bytes (rule R77) -/

/-- Settles O47: each response is its status byte before its payload. -/
theorem responseBytes : Obligations.ResponseBytes :=
  ⟨rfl, fun _ => rfl, fun _ _ => rfl, fun e => ⟨Config.pinErrorBytes e, rfl⟩,
    fun e => ⟨Config.transportErrorBytes e, rfl⟩⟩

/-! ## The pseudo-commands (rule R79) -/

/-- The empty text clears the buffer and writes nothing over it. -/
theorem readSlot_writtenBuffer_clear (cfg : Config) (m : Memory) (j : Slot) :
    readSlot (writtenBuffer cfg (.wstr []) m) j = blank :=
  readSlot_cleared j

/-- Settles O56: CLEAR is the buffer write of the empty text. -/
theorem pseudoCommandsExpand : Obligations.PseudoCommandsExpand := by
  refine ⟨rfl, rfl, fun s c h i hi => ?_⟩
  obtain rfl : i = .wstr [] := List.mem_singleton.mp hi
  exact ⟨_, _, exec_bufferWrite h rfl, writeBuffer_life .., readSlot_writtenBuffer_clear s.cfg c.bb⟩

end Sys2Proof.Machine

/-! # The encoder: `encode_char`, `encode_digit` and the commands that answer them

The rules of spec/40_encoder.md. Each class of code is one line of the lookup, said once as an equation for
`encodeChar` in terms of the class's offset; `encodeDigit` has a value or none, and a ready ENCD answers the one and
faults on the other. -/

namespace Sys2Proof.Machine

/-! ## `encode_char` by class (rules R67, R87) -/

theorem encodeChar_of_digit (cfg : Config) {c : Word} (k : Fin 10) (h : c.toNat = 0x30 + k) :
    encodeChar cfg c = cfg.digit k := by
  have hk : (⟨c.toNat - 0x30, by omega⟩ : Fin 10) = k := Fin.ext (by simp [h])
  rw [encodeChar, dif_pos (by omega), hk]

theorem encodeNormalised_of_upper (cfg : Config) {c : Word} (k : Fin 26) (h : c.toNat = 0x41 + k) :
    encodeNormalised cfg c = cfg.letter k := by
  have hk : (⟨c.toNat - 0x41, by omega⟩ : Fin 26) = k := Fin.ext (by simp [h])
  rw [encodeNormalised, dif_pos (by omega), hk]

/-- An upper-case code is not changed by folding the case. -/
theorem encodeChar_of_upper (cfg : Config) {c : Word} (k : Fin 26) (h : c.toNat = 0x41 + k) :
    encodeChar cfg c = cfg.letter k := by
  rw [encodeChar, dif_neg (by omega), normalise, if_neg (by omega), encodeNormalised_of_upper cfg k h]

/-- A lower-case code folds to the upper-case code of the same offset (rule R68). -/
theorem encodeChar_of_lower (cfg : Config) {c : Word} (k : Fin 26) (h : c.toNat = 0x61 + k) :
    encodeChar cfg c = cfg.letter k := by
  have hfold : (c - 0x20#32).toNat = 0x41 + k := by bv_omega
  rw [encodeChar, dif_neg (by omega), normalise, if_pos (by omega), encodeNormalised_of_upper cfg k hfold]

/-- Settles O9: the three tables by the equation of each class, the fixed codes by their lines of the lookup, and a
code outside every class by `encodeChar_of_other`. -/
theorem encodeCharByClass : Obligations.EncodeCharByClass := by
  refine fun cfg => ⟨fun k _ => encodeChar_of_digit cfg k, fun k _ => encodeChar_of_upper cfg k,
    fun k _ => encodeChar_of_lower cfg k, rfl, rfl, rfl,
    fun c hdigit hupper hlower hspace hminus hunder => encodeChar_of_other cfg ?_⟩
  exact classify_eq_other_iff.mpr ⟨hdigit, hupper, hlower, BitVec.toNat_ne.mp hspace, BitVec.toNat_ne.mp hminus,
    BitVec.toNat_ne.mp hunder⟩

/-- Settles O11: the four codes have the offsets 20 and 21 in the letter table, whose entries there are equal. -/
theorem uAndVShareAPattern : Obligations.UAndVShareAPattern := by
  intro cfg h
  have hletter : cfg.letter 20 = cfg.letter 21 := h
  rw [encodeChar_of_upper cfg 20 (c := 0x55#32) rfl, encodeChar_of_upper cfg 21 (c := 0x56#32) rfl,
    encodeChar_of_lower cfg 20 (c := 0x75#32) rfl, encodeChar_of_lower cfg 21 (c := 0x76#32) rfl]
  exact ⟨hletter, rfl, hletter.symm⟩

/-! ## `encode_digit` and the properties of rule R94 (rules R89, R90) -/

theorem encodeDigit_of_digit (cfg : Config) {n : Word} (k : Fin 10) (h : n.toNat = k) :
    encodeDigit cfg n = some (cfg.digit k) := by
  have hk : (⟨n.toNat, by omega⟩ : Fin 10) = k := Fin.ext h
  rw [encodeDigit, dif_pos (by omega), hk]

theorem encodeDigit_of_ge (cfg : Config) {n : Word} (h : 10 ≤ n.toNat) : encodeDigit cfg n = none :=
  dif_neg (by omega)

/-- A code in a range of `n` codes from `lo` on has an offset in it. -/
theorem exists_offset {lo n a : Nat} (hlo : lo ≤ a) (hhi : a < lo + n) : ∃ k : Fin n, a = lo + k :=
  ⟨⟨a - lo, by omega⟩, by simp only; omega⟩

/-- Settles O10: the code's offset in its range names the table entry that both sides answer. -/
theorem encoderProperties : Obligations.EncoderProperties := by
  refine fun cfg c => ⟨fun h => ?digit, fun h => ?fold, rfl, encodeChar_of_other cfg⟩
  case digit =>
    obtain ⟨k, hc⟩ : ∃ k : Fin 10, c.toNat = 0x30 + k := exists_offset h.1 (by omega)
    have hn : (c - 0x30#32).toNat = k := by bv_omega
    rw [encodeChar_of_digit cfg k hc, encodeDigit_of_digit cfg k hn]
  case fold =>
    obtain ⟨k, hc⟩ : ∃ k : Fin 26, c.toNat = 0x41 + k := exists_offset h.1 (by omega)
    have hlower : (c + 0x20#32).toNat = 0x61 + k := by bv_omega
    rw [encodeChar_of_upper cfg k hc, encodeChar_of_lower cfg k hlower]

/-! ## ENCC and ENCD on a ready block (rules R88, R90, R91) -/

/-- A command's event and its response are all that an answering encoder command adds to the state. -/
theorem respond_log (s : State) (e : Event) (r : Response) :
    (s.log e).respond r = { s with trace := s.trace ++ [e, .resp r] } := by
  simp [State.respond, State.log]

theorem exec_encd_of_some {s : State} {n : Word} {p : Byte} (h : s.Ready) (hp : encodeDigit s.cfg n = some p) :
    exec (.encd n) s = .next ((s.log (.cmd (.encd n))).respond (.okPattern p)) :=
  (encoderCommand_ready h _ _).trans (by simp only [log_cfg, hp])

theorem exec_encd_of_none {s : State} {n : Word} (h : s.Ready) (hn : encodeDigit s.cfg n = none) :
    exec (.encd n) s = .next ((s.log (.cmd (.encd n))).raise (.digitRange n)) :=
  (encoderCommand_ready h _ _).trans (by simp only [log_cfg, hn])

/-- Settles O8: ENCC's check passes, and its body only responds. -/
theorem enccResponds : Obligations.EnccResponds := fun _ _ h =>
  (encoderCommand_ready h _ _).trans (congrArg Host.Outcome.next (respond_log ..))

/-- Settles O12: a word below 10 has a value, which ENCD answers. -/
theorem encdResponds : Obligations.EncdResponds := by
  intro s k h
  have hk : (BitVec.ofNat 32 k).toNat = k := Nat.mod_eq_of_lt (by omega)
  rw [exec_encd_of_some h (encodeDigit_of_digit s.cfg k hk), respond_log]
  rfl

/-- Settles O13: a word of 10 or more has no value, and ENCD records its mark. -/
theorem encdOutOfRangeFaults : Obligations.EncdOutOfRangeFaults := fun s _ h hn =>
  have hnone := encodeDigit_of_ge s.cfg hn
  ⟨hnone, exec_encd_of_none h hnone⟩

end Sys2Proof.Machine

/-! # The lifecycle: CONSTRUCT, RELEASE and the block without a controller

The rules of spec/41_lifecycle.md. Without a controller the block is in Idle, so every command passes the first check,
and its second check decides it: CONSTRUCT completes and a command of the controller faults. What a step does to the
handles, and that it makes no call, follows from the inversions of `exec` and `step`. -/

namespace Sys2Proof.Machine

/-! ## The states without a controller (rules R32, R100) -/

theorem not_active_of_noController {s : State} {c : Controller} (h : s.NoController) : s.life ≠ .active c := by
  obtain h | h := h <;> simp [h]

theorem phase_of_noController {s : State} (h : s.NoController) : s.phase = .idle := by
  obtain h | h := h <;> simp [State.phase, Life.phase, h]

/-! ## CONSTRUCT and RELEASE complete (rules R101, R105) -/

/-- Settles O15: CONSTRUCT passes its checks, and the free values touch only `PAT`, `MASK` and `DLY`. -/
theorem constructEstablishesResetState : Obligations.ConstructEstablishesResetState := by
  intro s t sh hf hl
  refine ⟨(constructedController t sh).unspecifyPayload s.draws, (constructCommand_ready hf hl _ _).trans ?effect,
    rfl, rfl, readSlot_cleared, rfl, rfl, rfl⟩
  simp [State.setIdleController, State.respond, State.log]

/-- Settles O16: RELEASE passes its checks, and its body ends the controller and responds. -/
theorem releaseReturnsHandles : Obligations.ReleaseReturnsHandles := fun s c h =>
  (controllerCommand_ready h .release _).trans (by simp [State.respond, State.log])

/-! ## The handles of a controller (rule R106) -/

/-- A command keeps a controller's handles, but RELEASE, which answers them. -/
theorem effect_handles {s t : State} {i : Instr} {c : Controller} (he : Effect s i t) (hl : s.life = .active c) :
    (∃ c', t.life = .active c' ∧ c'.th = c.th ∧ c'.sh = c.sh) ∨
      (t.life = .released ∧ t.trace = s.trace ++ [.cmd .release, .resp (.okHandles c.th c.sh)]) := by
  cases he with
  | encc | encd => exact .inl ⟨c, hl, rfl, rfl⟩
  | construct t sh hn => exact absurd hl (not_active_of_noController hn)
  | release d hd =>
    obtain rfl := active_unique hl hd
    exact .inr ⟨rfl, by simp⟩
  | wchars _ _ _ _ d hd | wstr _ d hd | wnum _ d hd | refresh d hd | refreshd _ d hd =>
    obtain rfl := active_unique hl hd
    exact .inl ⟨_, rfl, rfl, rfl⟩

/-- Settles O17: a command's effect by `effect_handles`, an answer by `answered_controller`; a model fault, a byte and
an idle step leave the controller. -/
theorem handlesKeptUntilReleased : Obligations.HandlesKeptUntilReleased := by
  refine ⟨fun s t h k hx hf => ?construct, fun s t c hl hs => ?step⟩
  case construct =>
    obtain ⟨-, he | ⟨f, -, rfl⟩⟩ := exec_next hx
    · cases he
      exact ⟨_, rfl, rfl, rfl⟩
    · cases hf
  case step =>
    obtain ⟨-, ⟨i, rest, -, hx⟩ | ⟨b, later, -, -, rfl⟩ | ⟨d, a, later, -, -, hd, ha⟩ | ⟨-, -, -, rfl⟩⟩ := step_next hs
    · obtain ⟨-, he | ⟨f, -, rfl⟩⟩ := exec_next hx
      · exact (effect_handles he hl :)
      · exact .inl ⟨c, hl, rfl, rfl⟩
    · exact .inl ⟨c, hl, rfl, rfl⟩
    · obtain rfl := active_unique hl hd
      obtain ⟨c', hl', hth, hsh, -, -⟩ := answered_controller ha
      exact .inl ⟨c', hl', hth, hsh⟩
    · exact .inl ⟨c, hl, rfl, rfl⟩

/-! ## The block without a controller (rule R107) -/

/-- Only a controller is refreshed, and only for its collaborators are there calls. -/
theorem step_calls_of_noController {s t : State} (h : s.NoController) (hs : step s = .next t) :
    calls t.trace = calls s.trace := by
  obtain ⟨-, ⟨i, rest, -, hx⟩ | ⟨b, later, -, -, rfl⟩ | ⟨c, a, later, -, -, hl, -⟩ | ⟨-, -, -, rfl⟩⟩ := step_next hs
  · obtain hsame | ⟨c, hl, -⟩ := exec_calls hx
    · exact hsame
    · exact absurd hl (not_active_of_noController h)
  · rfl
  · exact absurd hl (not_active_of_noController h)
  · rfl

/-- A controller command that fails its second check. -/
theorem controllerCommand_noController {s : State} (hf : s.fault = none) (hl : s.NoController) (i : Instr)
    (body : Controller → State → Result) :
    controllerCommand i s body =
      .next { s with fault := some (.lifecycle i.opcode), trace := s.trace ++ [.cmd i] } := by
  rw [controllerCommand, issue_unfaulted hf, whenIdle, if_pos (phase_of_noController (s := s.log _) hl)]
  obtain hl | hl := hl <;> simp [hl, State.raise, State.log]

theorem exec_needsController_noController {s : State} {i : Instr} (hf : s.fault = none) (hl : s.NoController)
    (hi : i.needsController = true) :
    exec i s = .next { s with fault := some (.lifecycle i.opcode), trace := s.trace ++ [.cmd i] } := by
  cases i with
  | release | wchars | wstr | wnum | refresh | refreshd => exact controllerCommand_noController hf hl _ _
  | encc | encd | construct | illegalZero | illegalHigh => cases hi

/-- Settles O20: without a controller the block is in Idle, so `enccResponds` and `encdResponds` give the encoder's
answers; `constructEstablishesResetState` gives the controller that CONSTRUCT makes. -/
theorem noCallsWithoutController : Obligations.NoCallsWithoutController := by
  intro s hl
  have hp := phase_of_noController hl
  refine ⟨fun _ => step_calls_of_noController hl, fun _ hf => exec_needsController_noController hf hl,
    fun c hf => enccResponds s c ⟨hf, hp⟩, fun k hf => encdResponds s k ⟨hf, hp⟩, fun t sh hf => ?construct⟩
  obtain ⟨c, hx, hth, hsh, -⟩ := constructEstablishesResetState s t sh hf hl
  exact ⟨_, c, hx, hf, rfl, rfl, hth, hsh⟩

end Sys2Proof.Machine

/-! # The buffer writes: WCHARS, WSTR and WNUM

The rules of spec/42_buffer_writes.md. On a ready controller each completes with the buffer that `writtenBuffer` names
and changes nothing else, said once; what is left for each command is which patterns its slots then hold. -/

namespace Sys2Proof.Machine

/-! ## A buffer write changes only the back buffer (rule R110) -/

/-- The whole next state of a buffer write on a ready controller. -/
theorem exec_bufferWrite_state {s : State} {c : Controller} {i : Instr} (h : s.ReadyWith c)
    (hi : i.isBufferWrite = true) :
    exec i s = .next { s with life := .active { c with bb := writtenBuffer s.cfg i c.bb },
                              trace := s.trace ++ [.cmd i, .resp .ok] } :=
  (exec_bufferWrite h hi).trans
    (congrArg Host.Outcome.next (by simp [State.writeBuffer, State.setController, State.respond, State.log]))

/-- A buffer write that completes without a fault was issued on a ready controller. -/
theorem readyWith_of_exec_bufferWrite {s t : State} {c : Controller} {i : Instr} (hl : s.life = .active c)
    (hi : i.isBufferWrite = true) (hx : exec i s = .next t) (ht : t.fault = none) : s.ReadyWith c := by
  obtain ⟨hf, he | ⟨f, -, rfl⟩⟩ := exec_next hx
  · cases he with
    | wchars _ _ _ _ d hd hp | wstr _ d hd hp | wnum _ d hd hp =>
      obtain rfl := active_unique hl hd
      exact ⟨hf, hl, hp⟩
    | encc | encd | construct | release | refresh | refreshd => cases hi
  · cases ht

theorem writtenBuffer_wf {m : Memory} (cfg : Config) (i : Instr) (hm : m.wf = true) :
    (writtenBuffer cfg i m).wf = true := by
  cases i with
  | wchars | wnum => exact writeSlots_wf _ _ hm
  | wstr => exact writeSlots_wf _ _ clearedMemory_wf
  | encc | encd | construct | release | refresh | refreshd | illegalZero | illegalHigh => exact hm

/-- Settles O26: the write completed on a ready controller, so its next state is known whole; a canonical memory lists
nothing from index 4 up. -/
theorem bufferWriteFrame : Obligations.BufferWriteFrame := by
  intro s t c i hinv hl hi hx ht
  have hready := readyWith_of_exec_bufferWrite hl hi hx ht
  obtain rfl := Host.Outcome.next.inj ((exec_bufferWrite_state hready hi).symm.trans hx)
  obtain ⟨hbb, -, -⟩ := (controller_wf_iff c).mp (hinv.controller_wf c hl)
  have hbb' := writtenBuffer_wf s.cfg i hbb
  exact ⟨_, rfl, hbb', fun a ha => (readAt_wf_ge hbb' ha).trans (readAt_wf_ge hbb ha).symm⟩

/-! ## The characters of WCHARS and WSTR (rules R113, R117, R119) -/

/-- Settles O22: the four patterns are written in order from slot 0. -/
theorem wcharsFillsSlots : Obligations.WcharsFillsSlots := fun _ _ _ _ _ _ h =>
  ⟨_, exec_bufferWrite_state h rfl, readSlot_writeSlots_four ..⟩

/-- A slot after WSTR: the pattern of its character if the text has one there, blank beyond the text's end. -/
theorem readSlot_writtenBuffer_wstr (cfg : Config) (text : List Word) (m : Memory) (i : Slot) :
    readSlot (writtenBuffer cfg (.wstr text) m) i = (text.map (encodeChar cfg)).getD i.toNat blank := by
  have hlen : ((text.take 4).map (encodeChar cfg)).length ≤ 4 := by simp
  have htake : (text.take 4)[i.toNat]? = text[i.toNat]? := List.getElem?_take_of_lt i.isLt
  calc readSlot (writtenBuffer cfg (.wstr text) m) i
      = ((text.take 4).map (encodeChar cfg)).getD i.toNat blank := readSlot_writeSlots clearedMemory _ hlen i
    _ = (text.map (encodeChar cfg)).getD i.toNat blank := by
      simp only [List.getD_eq_getElem?_getD, List.getElem?_map, htake]

/-- Settles O23: a slot's index is inside the text or beyond its end. -/
theorem wstrTruncatesAndPads : Obligations.WstrTruncatesAndPads := by
  intro s c text h
  refine ⟨_, exec_bufferWrite_state h rfl, fun i hlt => ?inside, fun i hle => ?beyond⟩
  case inside => simp [readSlot_writtenBuffer_wstr, hlt]
  case beyond => simp [readSlot_writtenBuffer_wstr, hle, blank]

/-! ## The number of WNUM (rules R121 to R124) -/

/-- The clamp in numbers: a word read as negative becomes 0, and every other at most 9999. -/
theorem clamp_val (signed : Bool) (n : Word) :
    (clamp signed n).val = if signed = true ∧ n.toInt < 0 then 0 else min n.toNat 9999 := by
  have hneg : (n.msb && signed) = true ↔ signed = true ∧ n.toInt < 0 := by
    simp [BitVec.msb_eq_toInt, and_comm]
  unfold clamp
  simp only [hneg]
  split
  · rfl
  · split
    · exact (Nat.min_eq_left ‹_›).symm
    · exact (Nat.min_eq_right (by omega)).symm

/-- A number above 9999, as it is read, clamps to 9999: it is not negative, so its word is above 9999 too. -/
theorem clamp_of_gt {signed : Bool} {n : Word}
    (h : (if signed = true then n.toInt else (n.toNat : Int)) > 9999) : clamp signed n = 9999 := by
  have hle : n.toInt ≤ n.toNat := by rw [BitVec.toInt_eq_toNat_cond]; split <;> omega
  have hread : ¬(signed = true ∧ n.toInt < 0) ∧ 9999 ≤ n.toNat := by
    split at h
    · omega
    · next hu => exact ⟨fun hs => hu hs.1, by omega⟩
  apply Fin.ext
  rw [clamp_val, if_neg hread.1]
  exact Nat.min_eq_right hread.2

theorem clamp_9999 (signed : Bool) : clamp signed 9999#32 = 9999 := by
  cases signed <;> rfl

theorem clamp_seven (signed : Bool) : clamp signed 7#32 = 7 := by
  cases signed <;> rfl

/-- The patterns that WNUM puts in the slots are those of the decimal digits of the clamped number. -/
theorem slotsAre_writtenBuffer_wnum (cfg : Config) (n : Word) (m : Memory) {d0 d1 d2 d3 : Fin 10}
    (hd : decimalDigits (clamp cfg.numSigned n) = [d0, d1, d2, d3]) :
    slotsAre (writtenBuffer cfg (.wnum n) m) (cfg.digit d0) (cfg.digit d1) (cfg.digit d2) (cfg.digit d3) := by
  rw [writtenBuffer, hd]
  exact readSlot_writeSlots_four ..

/-- Four decimal digits that together are the number, thousands first. -/
theorem exists_decimalDigits (m : Fin 10000) :
    ∃ d0 d1 d2 d3 : Fin 10, decimalDigits m = [d0, d1, d2, d3] ∧
      1000 * d0.val + 100 * d1.val + 10 * d2.val + d3.val = m.val :=
  ⟨_, _, _, _, rfl, by simp only; omega⟩

/-- Settles O24: the slots hold the digits of the clamped number, whose value `clamp_val` gives. -/
theorem wnumWritesDigits : Obligations.WnumWritesDigits := by
  intro s c n h
  obtain ⟨d0, d1, d2, d3, hd, hsum⟩ := exists_decimalDigits (clamp s.cfg.numSigned n)
  exact ⟨_, d0, d1, d2, d3, exec_bufferWrite_state h rfl, slotsAre_writtenBuffer_wnum s.cfg n c.bb hd,
    hsum.trans (clamp_val ..)⟩

/-- WNUM writes the same buffer for words that clamp to the same number. -/
theorem writtenBuffer_wnum_congr {cfg : Config} {n n' : Word}
    (h : clamp cfg.numSigned n = clamp cfg.numSigned n') (m : Memory) :
    writtenBuffer cfg (.wnum n) m = writtenBuffer cfg (.wnum n') m := by
  simp only [writtenBuffer, h]

/-- Settles O25: the digits of 7 are 0, 0, 0, 7, and a number above 9999 clamps as 9999 does. -/
theorem wnumSevenAndClamp : Obligations.WnumSevenAndClamp := by
  refine ⟨fun s c h => ?seven, fun s c n h hn => ?above⟩
  case seven =>
    have hd : decimalDigits (clamp s.cfg.numSigned 7#32) = [0, 0, 0, 7] := by rw [clamp_seven]; rfl
    obtain ⟨h0, h1, h2, h3⟩ := slotsAre_writtenBuffer_wnum s.cfg 7#32 c.bb hd
    have hzero := encodeDigit_of_digit s.cfg (n := 0#32) 0 rfl
    have hseven := encodeDigit_of_digit s.cfg (n := 7#32) 7 rfl
    exact ⟨_, exec_bufferWrite_state h rfl, by rw [h0, hzero], by rw [h1, hzero], by rw [h2, hzero],
      by rw [h3, hseven]⟩
  case above =>
    have hclamp := (clamp_of_gt hn).trans (clamp_9999 s.cfg.numSigned).symm
    refine ⟨_, exec_bufferWrite_state h rfl, rfl, ?_⟩
    rw [exec_bufferWrite_state h rfl, writtenBuffer_wnum_congr hclamp]

end Sys2Proof.Machine

/-! # The refresh: REFRESH, REFRESHD and the answers of their collaborators

The rules of spec/43_refresh.md. The command step of either kind is one `beginRefresh`, and each row of R134 is one
constructor of `Answered`, which `answerRefresh_of_answered` turns into the step. A whole refresh is a chain of these:
its states between two steps are `State.during`, which says where the refresh stands, what it has put into the trace
and what is left of the input. -/

namespace Sys2Proof.Machine

/-! ## The cursor and its masks (rules R131, R133) -/

@[simp] theorem nextCursor_toNat (c : Slot) : (nextCursor c).toNat = (c.toNat + 1) % 4 :=
  BitVec.toNat_add c 1#2

theorem nextCursor_eq_ofNat (c : Slot) : nextCursor c = BitVec.ofNat 2 ((c.toNat + 1) % 4) := by
  rw [← nextCursor_toNat, BitVec.ofNat_toNat, BitVec.setWidth_eq]

/-- Settles O38: the rotation for each of the four cursors. -/
theorem masksCycleWithPeriodFour : Obligations.MasksCycleWithPeriodFour := by
  refine ⟨rfl, fun c => ?_⟩
  rcases slot_cases c with rfl | rfl | rfl | rfl <;> exact ⟨rfl, rfl, rfl⟩

/-! ## The command step (rules R130, R131, R141) -/

/-- The delay source that a refresh captures in `DLY` (rule R141); `exec_refresh` ties it to `exec`. -/
def delaySource : Instr → Option Handle
  | .refreshd d => some d
  | _ => none

/-- On a ready controller a refresh of either kind completes its command step, and all it does is begin. -/
theorem exec_refresh {s : State} {c : Controller} {i : Instr} (h : s.ReadyWith c) (hi : i.isRefresh = true) :
    exec i s = .next ((s.log (.cmd i)).beginRefresh c (delaySource i)) := by
  cases i with
  | refresh | refreshd => exact controllerCommand_ready h _ _
  | encc | encd | construct | release | wchars | wstr | wnum | illegalZero | illegalHigh => cases hi

/-- The whole next state of a refresh's command step. -/
theorem exec_refresh_state {s : State} {c : Controller} {i : Instr} (h : s.ReadyWith c) (hi : i.isRefresh = true) :
    exec i s = .next { s with
      life := .active (c.capture (delaySource i))
      trace := s.trace ++ [.cmd i, .call c.sh .strobeLow] } :=
  (exec_refresh h hi).trans
    (congrArg Host.Outcome.next (by simp [State.beginRefresh, State.setController, State.log]))

/-- What the capture writes, in numbers. -/
theorem capture_eq (c : Controller) (dly : Option Handle) :
    c.capture dly = { c with
      pat := readSlot c.bb c.cursor
      mask := 1#8 <<< (3 - c.cursor.toNat)
      dly := dly
      cursor := BitVec.ofNat 2 ((c.cursor.toNat + 1) % 4)
      strobe := .unknown
      phase := .waitLow } := by
  rw [Controller.capture, nextCursor_eq_ofNat, digitMask]

/-- Settles O30: the command step, with no delay source. -/
theorem refreshCapturesThenAdvances : Obligations.RefreshCapturesThenAdvances := by
  intro s c h
  rw [exec_refresh_state h rfl, capture_eq]
  rfl

/-- Settles O31: the command step, with the operand as its delay source. -/
theorem refreshdCapturesThenAdvances : Obligations.RefreshdCapturesThenAdvances := by
  intro s c d h
  rw [exec_refresh_state h rfl, capture_eq]
  rfl

/-! ## The answer steps (rules R134, R139) -/

/-- The converse of `answerRefresh_next`: each row of R134 is taken. -/
theorem answerRefresh_of_answered {s t : State} {c : Controller} {a : Answer} (h : Answered s c a t) :
    answerRefresh a c s = .next t := by
  cases h with
  | lowOk hp | lowErr hp | writeErr hp | delayOk hp | highOk hp | highErr hp => simp [answerRefresh, hp]
  | writeOk hp hd | writeOkDelay hp _ hd => simp [answerRefresh, hp, State.afterWrite, hd]

theorem step_of_answered {s t : State} {c : Controller} {a : Answer} {later : List EnvEvent}
    (h : s.Receives c a later) (ha : Answered { s with inbox := later } c a t) : step s = .next t :=
  (step_receives h).trans (answerRefresh_of_answered ha)

/-- The answer of a step that has a next state has a row. -/
theorem answered_of_step {s t : State} {c : Controller} {a : Answer} {later : List EnvEvent}
    (h : s.Receives c a later) (hs : step s = .next t) : Answered { s with inbox := later } c a t :=
  answerRefresh_next ((step_receives h).symm.trans hs)

/-- The state in which an answer's row makes its call, written out. -/
theorem callAfterAnswer_eq (s : State) (c : Controller) (a : Answer) (call : Event) :
    ((s.log (.ans a)).setController c).log call =
      { s with life := .active c, trace := s.trace ++ [.ans a, call] } := by
  simp [State.setController, State.log]

/-- Settles O32: the rows of R134 that set the controller and make a call. -/
theorem answersMoveRefreshOn : Obligations.AnswersMoveRefreshOn := by
  intro s c later h
  have calls_of {c' call}
      (ha : Answered { s with inbox := later } c .ok
        (((State.log { s with inbox := later } (.ans .ok)).setController c').log call)) :
      step s = .next { s with life := .active c', inbox := later, trace := s.trace ++ [.ans .ok, call] } :=
    (step_of_answered h ha).trans (congrArg Host.Outcome.next (callAfterAnswer_eq ..))
  exact ⟨fun hp => calls_of (.lowOk hp), fun hp hd => calls_of (.writeOk hp hd),
    fun d hp hd => calls_of (.writeOkDelay hp d hd), fun hp => calls_of (.delayOk hp)⟩

/-- In Idle no answer has a row, with a controller or without one. -/
theorem receiveAnswer_idle {s : State} (h : s.phase = .idle) (a : Answer) :
    receiveAnswer a s = .fault (.noTransition .idle) := by
  unfold receiveAnswer
  split
  · next c hl =>
    have hp : c.phase = .idle := by simpa [State.phase, Life.phase, hl] using h
    simp [answerRefresh, hp]
  · rfl
  · rfl

/-- Settles O34: the arms of `answerRefresh` that no row of R134 covers. -/
theorem otherAnswersHaveNoTransition : Obligations.OtherAnswersHaveNoTransition := by
  refine ⟨fun s a later hf hd hi hp => ?idle, fun s c e later h hp => ?pinErr, fun s c e later h hp => ?transportErr⟩
  case idle =>
    have hrow := receiveAnswer_idle (s := { s with inbox := later }) hp a
    simpa [step, hf, hd, nextEvent, hi] using hrow
  case pinErr => rcases hp with hp | hp <;> simp [step_receives h, answerRefresh, hp]
  case transportErr => rcases hp with hp | hp | hp <;> simp [step_receives h, answerRefresh, hp]

/-- Settles O35: with no event left a block that waits has no step. -/
theorem unansweredCallHangs : Obligations.UnansweredCallHangs := by
  intro s hf hp hd hi
  simp [step, hf, hd, nextEvent, hi, awaitEvent, hp]

/-- Settles O36: the command step captures, which advances the cursor, and no answer's row writes it. -/
theorem cursorAdvancesWhateverHappens : Obligations.CursorAdvancesWhateverHappens := by
  refine ⟨fun s c i h hi => ⟨_, _, exec_refresh h hi, beginRefresh_life .., nextCursor_toNat _⟩,
    fun s t c a later h hs => ?_⟩
  obtain ⟨c', hl, -, -, -, hcursor⟩ := answered_controller (answered_of_step h hs)
  exact ⟨c', hl, hcursor⟩

/-! ## The states of a refresh in progress -/

/-- The controller `c` in a refresh that waits in phase `p` and knows the line to be at `level`. -/
def Controller.during (c : Controller) (dly : Option Handle) (p : Phase) (level : Strobe) : Controller :=
  { c.capture dly with phase := p, strobe := level }

/-- The state `s` in a refresh of its controller `c`: what the refresh has added to the trace and what is left of the
environment's events and bytes. `runSteps_waitLow` ties it to `runSteps`. -/
def State.during (s : State) (c : Controller) (events : List Event) (later : List EnvEvent) (rest : List Byte) :
    State :=
  { s with life := .active c, trace := s.trace ++ events, inbox := later, rx := rest }

theorem runSteps_succ_of_next {n : Nat} {s t : State} (h : runSteps n s = .next t) :
    runSteps (n + 1) s = step t := by
  induction n generalizing s with
  | zero =>
    obtain rfl := Host.Outcome.next.inj h
    rw [runSteps]
    cases step s <;> rfl
  | succ n ih =>
    rw [runSteps] at h ⊢
    cases hs : step s with
    | next u => simpa only using ih (by simpa only [hs] using h)
    | fault f => simp [hs] at h
    | refused r => simp [hs] at h

/-- One more step of a run, where an answer is what comes next. -/
theorem runSteps_answered {n : Nat} {s t : State} {c : Controller} {a : Answer} {events : List Event}
    {later : List EnvEvent} {rest : List Byte} (hf : s.fault = none) (hd : decode rest = .incomplete)
    (hrun : runSteps n s = .next (s.during c events (.answer a :: later) rest))
    (ha : Answered (s.during c events later rest) c a t) : runSteps (n + 1) s = .next t :=
  (runSteps_succ_of_next hrun).trans (step_of_answered ⟨hf, rfl, hd, rfl⟩ ha)

theorem during_callAfterAnswer (s : State) (c c' : Controller) (events : List Event) (later : List EnvEvent)
    (rest : List Byte) (a : Answer) (call : Event) :
    (((s.during c events later rest).log (.ans a)).setController c').log call =
      s.during c' (events ++ [.ans a, call]) later rest := by
  simp [State.during, callAfterAnswer_eq]

/-- A run that comes to an answer which ends the refresh: the outcome of one more step. -/
theorem endsRefresh_of_run {n : Nat} {s : State} {c : Controller} {dly : Option Handle} {p : Phase}
    {level level' : Strobe} {a : Answer} {r : Response} {events : List Event} {later : List EnvEvent}
    {rest : List Byte} (hf : s.fault = none) (hd : decode rest = .incomplete)
    (hrun : runSteps n s = .next (s.during (c.during dly p level) events (.answer a :: later) rest))
    (ha : Answered (s.during (c.during dly p level) events later rest) (c.during dly p level) a
      (((s.during (c.during dly p level) events later rest).log (.ans a)).endRefresh (c.during dly p level) level' r)) :
    ∃ t, runSteps (n + 1) s = .next t ∧ EndsRefresh s t c (events ++ [.ans a, .resp r]) level' later rest :=
  ⟨_, runSteps_answered hf hd hrun ha, by simp [State.during], hf, rfl, rfl, rfl, _, rfl, rfl, rfl, rfl,
    nextCursor_toNat c.cursor, rfl, rfl⟩

/-! ## The run of a refresh, step by step (rules R134, R135) -/

/-- The events of a refresh up to the call of step 2. -/
def eventsToWrite (c : Controller) (i : Instr) : List Event :=
  [.cmd i, .call c.sh .strobeLow, .ans .ok, .call c.th (.transportWrite [readSlot c.bb c.cursor, digitMask c.cursor])]

section

variable {s : State} {c : Controller} {i : Instr} {rest : List Byte} {later : List EnvEvent} {d : Handle}
variable (h : s.ReadyWith c) (hi : i.isRefresh = true) (hs : s.Issues i rest)

include h hi hs

theorem runSteps_waitLow (hin : s.inbox = later) :
    runSteps 1 s = .next (s.during (c.during (delaySource i) .waitLow .unknown)
      [.cmd i, .call c.sh .strobeLow] later rest) := by
  subst hin
  calc runSteps 1 s
      = step s := runSteps_succ_of_next rfl
    _ = exec i { s with rx := rest } := step_of_command h.1 hs.1
    _ = _ := exec_refresh_state h hi

theorem runSteps_waitWrite (hin : s.inbox = .answer .ok :: later) :
    runSteps 2 s = .next (s.during (c.during (delaySource i) .waitWrite .low) (eventsToWrite c i) later rest) :=
  (runSteps_answered h.1 hs.2 (runSteps_waitLow h hi hs hin) (.lowOk rfl)).trans
    (congrArg Host.Outcome.next (during_callAfterAnswer ..))

theorem runSteps_waitHigh (hdly : delaySource i = none) (hin : s.inbox = .answer .ok :: .answer .ok :: later) :
    runSteps 3 s = .next (s.during (c.during none .waitHigh .unknown)
      (eventsToWrite c i ++ [.ans .ok, .call c.sh .strobeHigh]) later rest) := by
  have hwrite := runSteps_waitWrite h hi hs hin
  rw [hdly] at hwrite
  exact (runSteps_answered h.1 hs.2 hwrite (.writeOk rfl rfl)).trans
    (congrArg Host.Outcome.next (during_callAfterAnswer ..))

theorem runSteps_waitDelay (hdly : delaySource i = some d) (hin : s.inbox = .answer .ok :: .answer .ok :: later) :
    runSteps 3 s = .next (s.during (c.during (some d) .waitDelay .low)
      (eventsToWrite c i ++ [.ans .ok, .call d (.delay s.cfg.delayUs)]) later rest) := by
  have hwrite := runSteps_waitWrite h hi hs hin
  rw [hdly] at hwrite
  exact (runSteps_answered h.1 hs.2 hwrite (.writeOkDelay rfl d rfl)).trans
    (congrArg Host.Outcome.next (during_callAfterAnswer ..))

theorem runSteps_waitHigh_of_delay (hdly : delaySource i = some d)
    (hin : s.inbox = .answer .ok :: .answer .ok :: .answer .ok :: later) :
    runSteps 4 s = .next (s.during (c.during (some d) .waitHigh .unknown)
      (eventsToWrite c i ++ [.ans .ok, .call d (.delay s.cfg.delayUs), .ans .ok, .call c.sh .strobeHigh])
      later rest) :=
  (runSteps_answered h.1 hs.2 (runSteps_waitDelay h hi hs hdly hin) (.delayOk rfl)).trans
    (congrArg Host.Outcome.next (during_callAfterAnswer ..))

end

/-! ## Whole refreshes (rules R140, R145) -/

/-- Settles O39: each kind's run comes to WaitHigh, where the answer Ok ends it. -/
theorem successfulRefreshTrace : Obligations.SuccessfulRefreshTrace :=
  ⟨fun _ _ _ _ h hs hin =>
      endsRefresh_of_run h.1 hs.2 (runSteps_waitHigh h rfl hs rfl hin) (.highOk rfl),
    fun _ _ _ _ _ h hs hin =>
      endsRefresh_of_run h.1 hs.2 (runSteps_waitHigh_of_delay h rfl hs rfl hin) (.highOk rfl)⟩

/-- Settles O40: the run comes to the phase of the step that fails, where the error ends it. -/
theorem failedRefreshOutcomes : Obligations.FailedRefreshOutcomes := by
  intro s c rest later e f h
  refine ⟨fun i hi hs hin => ?step1, fun i hi hs hin => ?step2, fun hs hin => ?step3, fun d hs hin => ?step3Delayed⟩
  case step1 => exact endsRefresh_of_run h.1 hs.2 (runSteps_waitLow h hi hs hin) (.lowErr rfl e)
  case step2 => exact endsRefresh_of_run h.1 hs.2 (runSteps_waitWrite h hi hs hin) (.writeErr rfl f)
  case step3 => exact endsRefresh_of_run h.1 hs.2 (runSteps_waitHigh h rfl hs rfl hin) (.highErr rfl e)
  case step3Delayed =>
    exact endsRefresh_of_run h.1 hs.2 (runSteps_waitHigh_of_delay h rfl hs rfl hin) (.highErr rfl e)

end Sys2Proof.Machine

/-! # The display: the optional observation of the chain and the latch

The observation of spec/92_eei_decisions.md D22 (notes/assumptions/12.md, 13.md and 18.md). The display after more
events is computed from the display before them, so each outcome of R140 is a lemma about an arbitrary display; that
at most one digit is shown is an invariant of the display, kept by every event whose payload has one digit's mask. -/

namespace Sys2Proof.Machine

/-! ## The display after more events (rule R140) -/

theorem observe_append (p : Platform) (tr events : List Event) :
    observe p (tr ++ events) = events.foldl (Display.observe p) (observe p tr) :=
  List.foldl_append

@[simp] theorem called_strobeLow (p : Platform) (d : Display) :
    d.called p p.sh .strobeLow = { d with pending := some .strobeLow } := if_pos rfl

@[simp] theorem called_strobeHigh (p : Platform) (d : Display) :
    d.called p p.sh .strobeHigh = { d with pending := some .strobeHigh } := if_pos rfl

@[simp] theorem called_transportWrite (p : Platform) (d : Display) (bs : List Byte) :
    d.called p p.th (.transportWrite bs) =
      { d with pending := some (.transportWrite bs), chain := none, paused := false } := if_pos rfl

/-- Only an unanswered StrobeHigh hides what the outputs hold. -/
theorem shown_of_pending_none {d : Display} (h : d.pending = none) : d.shown = d.latched := by
  simp [Display.shown, h]

theorem latched_of_shown {d : Display} {f : BitVec 16} (h : d.shown = some f) : d.latched = some f := by
  unfold Display.shown at h
  split at h
  · cases h
  all_goals exact h

/-- The display `d` while the write of step 2 is unanswered: the line is low. -/
def Display.shifting (d : Display) (pat mask : Byte) : Display :=
  { d with pending := some (.transportWrite [pat, mask]), chain := none, paused := false, level := .low }

/-- The display `d` with the frame in the chain and the line low, after the pause or without one. -/
def Display.loaded (d : Display) (pat mask : Byte) (paused : Bool) : Display :=
  { d with pending := none, chain := some (frameWord pat mask), paused := paused, level := .low }

section

variable (p : Platform) (d : Display) (i : Instr) (pat mask : Byte) (events : List Event)

theorem foldl_shifting :
    List.foldl (Display.observe p) d
      (.cmd i :: .call p.sh .strobeLow :: .ans .ok :: .call p.th (.transportWrite [pat, mask]) :: events) =
    List.foldl (Display.observe p) (d.shifting pat mask) events := by
  simp [Display.observe, Display.answered, Display.shifting]

theorem foldl_loaded :
    List.foldl (Display.observe p) (d.shifting pat mask) (.ans .ok :: events) =
    List.foldl (Display.observe p) (d.loaded pat mask false) events := rfl

theorem foldl_paused (h : Handle) (us : Nat) :
    List.foldl (Display.observe p) (d.loaded pat mask false) (.call h (.delay us) :: .ans .ok :: events) =
    List.foldl (Display.observe p) (d.loaded pat mask true) events := rfl

/-- The latch edge shows the frame if it is in time. -/
theorem shown_latched (paused : Bool) :
    (List.foldl (Display.observe p) (d.loaded pat mask paused) [.call p.sh .strobeHigh, .ans .ok, .resp .ok]).shown =
    if p.settles || paused then some (frameWord pat mask) else none := by
  simp [Display.observe, Display.loaded, Display.answered, Display.responded, latchEdge, Display.shown]

theorem shown_strobeHigh_hung (paused : Bool) :
    (List.foldl (Display.observe p) (d.loaded pat mask paused) [.call p.sh .strobeHigh]).shown = none := by
  simp [Display.observe, Display.shown]

theorem shown_strobeHigh_failed (paused : Bool) (e : EP) :
    (List.foldl (Display.observe p) (d.loaded pat mask paused)
      [.call p.sh .strobeHigh, .ans (.pinErr e), .resp (.pinError e)]).shown = none := by
  simp [Display.observe, Display.answered, Display.responded, Display.shown]

end

/-- Settles O54: each trace is followed to the stage it reaches, and the last events from there. -/
theorem displayAfterRefresh : Obligations.DisplayAfterRefresh := by
  intro tr p pat mask e f i d t us hidle after
  have hafter (events : List Event) :
      after events = (List.foldl (Display.observe p) (observe p tr) events).shown :=
    congrArg Display.shown (observe_append p tr events)
  have hheld := shown_of_pending_none hidle
  refine ⟨?latched, ?latchedAfterPause, ?lowHung, ?writeHung, ?lowFailed, ?writeFailed, ?highHung, ?highFailed,
    ?delayHung, ?highHungAfterPause, ?highFailedAfterPause, ?released⟩
  case latched => rw [hafter, foldl_shifting, foldl_loaded, shown_latched, Bool.or_false]
  case latchedAfterPause =>
    rw [hafter, foldl_shifting, foldl_loaded, foldl_paused, shown_latched, Bool.or_true, if_pos rfl]
  case lowHung => rw [hafter, hheld]; simp [Display.observe, Display.shown]
  case writeHung => rw [hafter, foldl_shifting, hheld]; rfl
  case lowFailed =>
    rw [hafter, hheld]
    simp [Display.observe, Display.answered, Display.responded, Display.shown]
  case writeFailed => rw [hafter, foldl_shifting]; rfl
  case highHung => rw [hafter, foldl_shifting, foldl_loaded, shown_strobeHigh_hung]
  case highFailed => rw [hafter, foldl_shifting, foldl_loaded, shown_strobeHigh_failed]
  case delayHung => rw [hafter, foldl_shifting, foldl_loaded, hheld]; rfl
  case highHungAfterPause => rw [hafter, foldl_shifting, foldl_loaded, foldl_paused, shown_strobeHigh_hung]
  case highFailedAfterPause => rw [hafter, foldl_shifting, foldl_loaded, foldl_paused, shown_strobeHigh_failed]
  case released =>
    rw [hafter]
    simp [Display.observe, Display.responded, Display.released, Display.shown]

/-! ## At most one digit is shown (rules R132, R183) -/

/-- The frame lights one digit. -/
def OneDigitFrame (f : BitVec 16) : Prop := ∃ (pat : Byte) (j : Slot), f = frameWord pat (digitMask j)

/-- The bytes of a write that lights one digit. -/
def OneDigitPayload (bs : List Byte) : Prop := ∃ (pat : Byte) (j : Slot), bs = [pat, digitMask j]

/-- Whatever the display is known to hold, or is being sent, lights one digit. -/
structure Display.OneDigit (d : Display) : Prop where
  pending : ∀ bs, d.pending = some (.transportWrite bs) → OneDigitPayload bs
  chain : ∀ f, d.chain = some f → OneDigitFrame f
  latched : ∀ f, d.latched = some f → OneDigitFrame f

theorem oneDigit_initial : Display.initial.OneDigit := ⟨nofun, nofun, nofun⟩

theorem writtenChain_oneDigit {bs : List Byte} (h : OneDigitPayload bs) {f : BitVec 16}
    (hf : writtenChain bs = some f) : OneDigitFrame f := by
  obtain ⟨pat, j, rfl⟩ := h
  cases hf
  exact ⟨pat, j, rfl⟩

/-- A latch edge copies the chain, or finds the outputs as they were. -/
theorem latchEdge_some {p : Platform} {d : Display} {f : BitVec 16} (h : latchEdge p d = some f) :
    d.chain = some f ∨ d.latched = some f := by
  unfold latchEdge at h
  split at h
  · split at h
    · exact .inl h
    · cases h
  · exact .inr h
  · cases h

theorem answered_oneDigit {d : Display} (h : d.OneDigit) (p : Platform) (a : Answer) :
    (d.answered p a).OneDigit := by
  obtain ⟨hpending, hchain, hlatched⟩ := h
  unfold Display.answered
  split
  · exact ⟨nofun, hchain, hlatched⟩
  · exact ⟨nofun, hchain, hlatched⟩
  · next bs hp => exact ⟨nofun, fun f => writtenChain_oneDigit (hpending bs hp), hlatched⟩
  · exact ⟨nofun, nofun, nofun⟩
  · exact ⟨nofun, hchain, fun f hf => (latchEdge_some hf).elim (hchain f) (hlatched f)⟩
  · exact ⟨nofun, hchain, nofun⟩
  · exact ⟨nofun, hchain, hlatched⟩
  · exact ⟨hpending, hchain, hlatched⟩

theorem called_oneDigit {d : Display} (h : d.OneDigit) (p : Platform) (t : Handle) {k : Call}
    (hk : ∀ bs, t = p.th → k = .transportWrite bs → OneDigitPayload bs) : (d.called p t k).OneDigit := by
  obtain ⟨-, hchain, hlatched⟩ := h
  cases k with
  | strobeLow | strobeHigh =>
    rw [Display.called]
    split <;> exact ⟨nofun, hchain, hlatched⟩
  | transportWrite bs =>
    rw [Display.called]
    split
    · next ht => exact ⟨fun bs' hb => hk bs' ht (Option.some.inj hb), nofun, hlatched⟩
    · exact ⟨nofun, hchain, hlatched⟩
  | delay us => exact ⟨nofun, hchain, hlatched⟩

theorem released_oneDigit {d : Display} (h : d.OneDigit) (p : Platform) (t s : Handle) :
    (d.released p t s).OneDigit :=
  ⟨nofun, fun f hf => h.chain f (Option.ite_none_left_eq_some.mp hf).2,
    fun f hf => h.latched f (Option.ite_none_left_eq_some.mp hf).2⟩

/-- One event keeps the invariant, if the bytes it hands to the platform's transport light one digit. -/
theorem observe_oneDigit {d : Display} (h : d.OneDigit) (p : Platform) {e : Event}
    (he : ∀ bs ∈ payloads p.th [e], OneDigitPayload bs) : (d.observe p e).OneDigit := by
  cases e with
  | cmd i => exact h
  | call t k => exact called_oneDigit h p t fun bs ht hk => he bs (by simp [payloads, ht, hk])
  | ans a => exact answered_oneDigit h p a
  | resp r =>
    cases r with
    | okHandles t s => exact released_oneDigit h p t s
    | ok | okPattern | pinError | transportError => exact h

theorem payloads_append (th : Handle) (tr tr' : List Event) :
    payloads th (tr ++ tr') = payloads th tr ++ payloads th tr' := by
  simp only [payloads, calls_append, List.filterMap_append]

theorem observe_trace_oneDigit (p : Platform) {tr : List Event}
    (h : ∀ bs ∈ payloads p.th tr, OneDigitPayload bs) : (observe p tr).OneDigit := by
  induction tr using List.reverseRecOn with
  | nil => exact oneDigit_initial
  | append_singleton tr e ih =>
    rw [payloads_append, List.forall_mem_append] at h
    obtain ⟨htr, he⟩ := h
    rw [observe_append]
    exact observe_oneDigit (ih htr) p he

theorem digitMask_injective : Function.Injective digitMask := by
  unfold Function.Injective
  decide

/-- A frame names its pattern and its digit. -/
theorem frameWord_digitMask_inj {pat pat' : Byte} {j j' : Slot} :
    frameWord pat (digitMask j) = frameWord pat' (digitMask j') ↔ j' = j ∧ pat' = pat := by
  refine ⟨fun h => ?_, fun ⟨hj, hp⟩ => by rw [hj, hp]⟩
  have hfar := congrArg farRegister h
  have hnear := congrArg nearRegister h
  rw [farRegister_frameWord, farRegister_frameWord] at hfar
  rw [nearRegister_frameWord, nearRegister_frameWord] at hnear
  exact ⟨(digitMask_injective hnear).symm, hfar.symm⟩

/-- Settles O55: the display's invariant holds of what is shown, and a frame names one digit. -/
theorem atMostOneDigitShown : Obligations.AtMostOneDigitShown := by
  intro tr p h f hf
  obtain ⟨pat, j, rfl⟩ := (observe_trace_oneDigit p h).latched f (latched_of_shown hf)
  refine ⟨pat, j, rfl, fun j' p' => ?_⟩
  rw [Display.digitShows, hf, Option.some.injEq, frameWord_digitMask_inj]

end Sys2Proof.Machine

/-! # Responses and model faults

The rules of spec/60_exceptions.md. For each check that a command can fail there is an equation for the state it then
leaves; in the other direction `exec_fault` says once that a mark left by a command has one of the causes in `Faults`,
and that the mark is all the command leaves. The responses are counted along `Effect` and `Answered`. -/

namespace Sys2Proof.Machine

/-! ## The reserved opcodes (rules R75, R154) -/

/-- Settles O4: the byte's row is one of the two reserved ones, whose meaning is `illegalCommand`. -/
theorem reservedOpcodesFault : Obligations.ReservedOpcodesFault := by
  rintro op rest (rfl | hop)
  · exact ⟨.illegalZero, rfl, rfl, rfl, rfl, fun s hf => illegalCommand_unfaulted hf .illegalZero⟩
  · have hwf : (Instr.illegalHigh op).wf = true := by simpa [Instr.wf] using hop
    exact ⟨.illegalHigh op, decode_illegalHigh hwf rest, rfl, rfl, rfl,
      fun s hf => illegalCommand_unfaulted hf (.illegalHigh op)⟩

/-! ## The precheck's faults (rules R100, R156, R157) -/

/-- CONSTRUCT that fails its second check. -/
theorem constructCommand_active {s : State} {c : Controller} (h : s.ReadyWith c) (i : Instr)
    (body : State → Result) :
    constructCommand i s body =
      .next { s with fault := some (.lifecycle i.opcode), trace := s.trace ++ [.cmd i] } := by
  obtain ⟨hf, hl, hp⟩ := h
  simp [constructCommand, issue, whenIdle, hf, hl, hp, State.phase, Life.phase, State.raise, State.log]

/-- Settles O18, by the equation of each second check that fails. -/
theorem misuseOfLifecycleFaults : Obligations.MisuseOfLifecycleFaults :=
  ⟨fun _ => ⟨rfl, rfl⟩, fun _ _ => exec_needsController_noController, fun _ _ _ _ h => constructCommand_active h _ _⟩

/-- A command that fails the first check, which comes before its own body. -/
theorem issue_whenIdle_waiting {s : State} (hf : s.fault = none) (hp : s.phase ≠ .idle) (i : Instr)
    (body : State → Result) :
    issue i s (fun s => whenIdle i s body) =
      .next { s with fault := some (.reentered i.opcode), trace := s.trace ++ [.cmd i] } := by
  rw [issue_unfaulted hf, whenIdle, if_neg (by simpa using hp)]
  rfl

theorem exec_waiting {s : State} {i : Instr} (hf : s.fault = none) (hp : s.phase ≠ .idle)
    (hi : i.isReserved = false) :
    exec i s = .next { s with fault := some (.reentered i.opcode), trace := s.trace ++ [.cmd i] } := by
  cases i with
  | encc | encd | construct | release | wchars | wstr | wnum | refresh | refreshd =>
    exact issue_whenIdle_waiting hf hp _ _
  | illegalZero | illegalHigh => cases hi

/-- Settles O19: every command but the reserved ones makes the first check. -/
theorem commandDuringRefreshFaults : Obligations.CommandDuringRefreshFaults := fun _ _ hf hp hi =>
  ⟨rfl, rfl, exec_waiting hf hp hi⟩

/-! ## Nothing else faults, and a fault changes nothing else (rules R153, R155) -/

theorem effect_fault {s t : State} {i : Instr} (h : Effect s i t) : t.fault = s.fault := by
  cases h <;> rfl

/-- A mark that a command leaves has one of the listed causes, and is all that the command leaves. -/
theorem exec_fault {i : Instr} {s t : State} {f : FaultMark} (h : exec i s = .next t) (ht : t.fault = some f) :
    Faults s i f ∧ t = { s with fault := some f, trace := s.trace ++ [.cmd i] } := by
  obtain ⟨hf, he | ⟨g, hg, rfl⟩⟩ := exec_next h
  · rw [effect_fault he, hf] at ht
    cases ht
  · obtain rfl := Option.some.inj ht
    exact ⟨hg, rfl⟩

theorem le_of_encodeDigit_none {cfg : Config} {n : Word} (h : encodeDigit cfg n = none) : 10 ≤ n.toNat := by
  by_contra hlt
  have hvalue := encodeDigit_of_digit cfg (n := n) ⟨n.toNat, by omega⟩ rfl
  rw [h] at hvalue
  cases hvalue

/-- Settles O44: the causes of `exec_fault`, one by one. -/
theorem onlyListedFaults : Obligations.OnlyListedFaults := by
  intro i s t f hx ht
  obtain ⟨hcause, -⟩ := exec_fault hx ht
  cases hcause with
  | illegal _ hi => exact .inl ⟨hi, rfl, rfl⟩
  | digitRange n hn => exact .inr (.inl ⟨n, rfl, le_of_encodeDigit_none hn, rfl, rfl⟩)
  | needs _ hi hl => exact .inr (.inr (.inl ⟨rfl, rfl, .inl ⟨hi, hl⟩⟩))
  | construct h k c hl => exact .inr (.inr (.inl ⟨rfl, rfl, .inr ⟨h, k, c, rfl, hl⟩⟩))
  | reentered _ _ hp => exact .inr (.inr (.inr ⟨hp, rfl, rfl⟩))

/-- Settles O45: the state by `exec_fault`; a marked state has no step. -/
theorem faultChangesNothingElse : Obligations.FaultChangesNothingElse := fun _ _ _ _ hx ht =>
  ⟨(exec_fault hx ht).2, step_faulted ht⟩

/-! ## The responses of a step (rules R151, R160) -/

@[simp] theorem responses_append (tr tr' : List Event) : responses (tr ++ tr') = responses tr ++ responses tr' :=
  List.filterMap_append

@[simp] theorem responses_nil : responses [] = [] := rfl
@[simp] theorem responses_cmd (i : Instr) (tr : List Event) : responses (.cmd i :: tr) = responses tr := rfl
@[simp] theorem responses_call (h : Handle) (k : Call) (tr : List Event) :
    responses (.call h k :: tr) = responses tr := rfl
@[simp] theorem responses_ans (a : Answer) (tr : List Event) : responses (.ans a :: tr) = responses tr := rfl
@[simp] theorem responses_resp (r : Response) (tr : List Event) : responses (.resp r :: tr) = r :: responses tr := rfl

/-- The effect of a refresh's command step answers nothing; that of any other command is one response, OK. -/
theorem effect_responses {s t : State} {i : Instr} (h : Effect s i t) :
    (i.isRefresh = true ∧ responses t.trace = responses s.trace) ∨
      (i.isRefresh = false ∧ ∃ r : Response, r.status = 0x00#8 ∧ responses t.trace = responses s.trace ++ [r]) := by
  cases h with
  | refresh | refreshd => exact .inl ⟨rfl, by simp⟩
  | encc c => exact .inr ⟨rfl, .okPattern (encodeChar s.cfg c), rfl, by simp⟩
  | encd n p => exact .inr ⟨rfl, .okPattern p, rfl, by simp⟩
  | release c => exact .inr ⟨rfl, .okHandles c.th c.sh, rfl, by simp⟩
  | construct | wchars | wstr | wnum => exact .inr ⟨rfl, .ok, rfl, by simp⟩

/-- An answer that leads to a further call answers nothing; one that ends the refresh is followed by one response. -/
theorem answered_responses {s t : State} {c : Controller} {a : Answer} (h : Answered s c a t) :
    (t.phase ≠ .idle ∧ responses t.trace = responses s.trace) ∨
      (t.phase = .idle ∧ ∃ r, responses t.trace = responses s.trace ++ [r]) := by
  cases h with
  | lowOk | writeOk | writeOkDelay | delayOk => exact .inl ⟨by simp [State.phase, Life.phase], by simp⟩
  | lowErr hp e | highErr hp e => exact .inr ⟨rfl, .pinError e, by simp⟩
  | writeErr hp e => exact .inr ⟨rfl, .transportError e, by simp⟩
  | highOk => exact .inr ⟨rfl, .ok, by simp⟩

/-- Settles O43: a command has its effect, counted by `effect_responses`, or faults without a response; an answer by
`answered_responses`. -/
theorem oneResponsePerCommand : Obligations.OneResponsePerCommand := by
  refine ⟨fun i s t hx => ?command, fun s t c a later h hs =>
    (answered_responses (answered_of_step h hs) :)⟩
  obtain ⟨hf, he | ⟨f, -, rfl⟩⟩ := exec_next hx
  · obtain ⟨hi, hsame⟩ | ⟨hi, hone⟩ := effect_responses he
    · exact .inl ⟨hsame, .inr hi⟩
    · exact .inr ⟨(effect_fault he).trans hf, hi, hone⟩
  · exact .inl ⟨by simp, .inl (by simp)⟩

/-- Settles O41: the rows of R134 for an error are those that end the refresh with it. -/
theorem noErrorIsSwallowed : Obligations.NoErrorIsSwallowed := by
  refine fun s t c later hs => ⟨fun e h => ?pin, fun e h => ?transport⟩
  case pin =>
    cases answered_of_step h hs with
    | lowErr hp => exact ⟨rfl, by simp, .inl hp⟩
    | highErr hp => exact ⟨rfl, by simp, .inr hp⟩
  case transport =>
    cases answered_of_step h hs with
    | writeErr hp => exact ⟨rfl, by simp, hp⟩

/-! ## The idle block (rule R173) -/

/-- Settles O48: with no event left an idle block steps to itself. -/
theorem idleBlockKeepsItsState : Obligations.IdleBlockKeepsItsState := by
  rintro s ⟨hf, hp⟩ hd hi
  simp [step, hf, hd, nextEvent, hi, awaitEvent, hp]

end Sys2Proof.Machine

/-! # The block at power-up

The rules of spec/70_reset_and_hazards.md. Power-up has no controller, for every choice of the parameters, so what is
legal there and why the invariant holds there are facts about every state without one. -/

namespace Sys2Proof.Machine

/-! ## The commands that are legal at power-up (rule R177) -/

/-- Without a controller only CONSTRUCT, ENCC and ENCD of a digit have an effect. -/
theorem effect_noController {s t : State} {i : Instr} (he : Effect s i t) (hl : s.NoController) :
    (∃ h k, i = .construct h k) ∨ (∃ c, i = .encc c) ∨ (∃ n, i = .encd n ∧ n.toNat ≤ 9) := by
  cases he with
  | construct h k => exact .inl ⟨h, k, rfl⟩
  | encc c => exact .inr (.inl ⟨c, rfl⟩)
  | encd n p hvalue =>
    have hn : ¬ 10 ≤ n.toNat := fun hge => by simp [encodeDigit_of_ge s.cfg hge] at hvalue
    exact .inr (.inr ⟨n, rfl, by omega⟩)
  | release c hc | wchars _ _ _ _ c hc | wstr _ c hc | wnum _ c hc | refresh c hc | refreshd _ c hc =>
    exact absurd hc (not_active_of_noController hl)

/-- Settles O21: a command that leaves no mark has its effect, which `effect_noController` limits; that the three
complete is `noCallsWithoutController` at power-up. -/
theorem powerUpState : Obligations.PowerUpState := by
  refine ⟨rfl, rfl, rfl, fun cfg i t hx ht => ?legal, fun cfg t sh c k => ?complete⟩
  case legal =>
    obtain ⟨-, he | ⟨f, -, rfl⟩⟩ := exec_next hx
    · exact effect_noController he (.inl rfl)
    · cases ht
  case complete =>
    obtain ⟨-, -, hencc, hencd, hconstruct⟩ := noCallsWithoutController { State.reset with cfg := cfg } (.inl rfl)
    obtain ⟨u, -, hx, hu, -⟩ := hconstruct t sh rfl
    exact ⟨⟨u, hx, hu⟩, ⟨_, hencc c rfl, rfl⟩, ⟨_, hencd k rfl, rfl⟩⟩

/-! ## The invariant at power-up (rules R82, R177) -/

/-- Without a controller the invariant asks only for the letter table's constraint. -/
theorem inv_of_noController {s : State} (hl : s.NoController) (hcfg : s.cfg.wf = true) : s.Inv where
  cfg_wf := hcfg
  controller_wf _ hc := absurd hc (not_active_of_noController hl)
  waits_on _ hc _ := absurd hc (not_active_of_noController hl)

/-- The reference fill RF-L gives 'U' and 'V' one pattern. -/
theorem referenceConfig_wf : referenceConfig.wf = true := by decide

/-- Settles O51: power-up has no controller, whatever the parameters, and the defaults of `State.reset` meet R82. -/
theorem invariantAtPowerUp : Obligations.InvariantAtPowerUp :=
  ⟨fun _ hcfg => inv_of_noController (.inl rfl) hcfg, inv_of_noController (.inl rfl) referenceConfig_wf⟩

end Sys2Proof.Machine
